-- ==== Sys2Proof/Word.lean ====
section
/-!
DEFINITION. The words of the block: bytes, the 14-byte register image, the voices and
paths, and the small records indexed by them (spec/00_scope.md R10, R13, R20;
spec/20_memory.md R59).
-/

namespace Sys2Proof

/-- One register of the image, or one byte of a command packet: 8 bits (R59). -/
abbrev Byte := BitVec 8

/-- A register image: exactly 14 bytes, `F[0]` to `F[13]` (R77).  A RegisterFrame. -/
abbrev Image := Vector Byte 14

/-- The tone voices (R20). -/
inductive Voice where
  | A | B | C
  deriving DecidableEq, Repr

/-- `k(X)`: the index 0, 1, 2 of a voice (R20). -/
def Voice.k : Voice → Nat
  | .A => 0
  | .B => 1
  | .C => 2

/-- The voices in their order A, B, C. -/
def Voice.all : List Voice := [.A, .B, .C]

/-- The user-control paths: the three tone voices and the noise path N (R20). -/
inductive Path where
  | A | B | C | N
  deriving DecidableEq, Repr

/-- The user-control path of a tone voice. -/
def Voice.path : Voice → Path
  | .A => .A
  | .B => .B
  | .C => .C

/-- One value per tone voice. -/
structure Voices (α : Type) where
  A : α
  B : α
  C : α
  deriving DecidableEq, Repr

/-- The value of voice `X`. -/
def Voices.get {α : Type} (v : Voices α) : Voice → α
  | .A => v.A
  | .B => v.B
  | .C => v.C

/-- The record whose value at each voice `X` is `f X`. -/
def Voices.ofFn {α : Type} (f : Voice → α) : Voices α := ⟨f .A, f .B, f .C⟩

@[simp] theorem Voices.get_ofFn {α : Type} (f : Voice → α) (X : Voice) :
    (Voices.ofFn f).get X = f X := by cases X <;> rfl

/-- One value per user-control path. -/
structure Paths (α : Type) where
  A : α
  B : α
  C : α
  N : α
  deriving DecidableEq, Repr

/-- The value of path `V`. -/
def Paths.get {α : Type} (v : Paths α) : Path → α
  | .A => v.A
  | .B => v.B
  | .C => v.C
  | .N => v.N

/-- The record whose value at each path `V` is `f V`. -/
def Paths.ofFn {α : Type} (f : Path → α) : Paths α := ⟨f .A, f .B, f .C, f .N⟩

@[simp] theorem Paths.get_ofFn {α : Type} (f : Path → α) (V : Path) :
    (Paths.ofFn f).get V = f V := by cases V <;> rfl

end Sys2Proof
end

