-- ==== Sys2Proof/Syntax.lean ====
section
/-!
DEFINITION. The seven commands, one constructor per row of spec/opcode_table.json
(spec/30_encoding.md R93 to R100), with their operands, and the two pseudo-commands of R104.
-/

namespace Sys2Proof

/-- A Track: its frames, each a 14-byte image, and its tick rate in ticks per second (R76,
R98).  The rate is any rational here; LOAD refuses one that is not > 0 (R101). -/
structure Track where
  frames : List Image
  rate : Rat
  deriving DecidableEq, Repr

/-- Why the external decoder built no Track (R98, R196). -/
inductive LoadFailure where
  | Malformed
  | UnsupportedVariant
  deriving DecidableEq, Repr

/-- The operand of LOAD: the external decoder's answer (R98). -/
inductive LoadResult where
  | ok (track : Track)
  | fail (kind : LoadFailure)
  deriving DecidableEq, Repr

/-- The commands.  A FRAME's image is a list of bytes of any length, since a FRAME whose
image is not 14 bytes long is a command that the block refuses (R62, R105). -/
inductive Instr where
  /-- FRAME: decode one register image and apply it (R105). -/
  | frame (F : List Byte) (now : Rat)
  /-- USERCTL: write the user-control registers (R179).  `mute` is mask bits 3:0. -/
  | userctl (mute : Paths Bool) (vol : Paths Rat)
  /-- RESET: restore the decoder-side state to its defaults (R184). -/
  | reset
  /-- LOAD: install a Track or report a load failure (R195). -/
  | load (result : LoadResult)
  /-- PLAY: start playback from the first frame (R198). -/
  | play (now : Rat)
  /-- STOP: enter Stopped (R199). -/
  | stop
  /-- WAKE: emit every frame that is due within the lead window (R200). -/
  | wake (now : Rat)
  deriving DecidableEq, Repr

/-- `SILENCE @t` (R104): a FRAME with all six mixer paths disabled and all levels 0. -/
def Instr.silence (t : Rat) : Instr :=
  .frame [0x00, 0x00, 0x00, 0x00, 0x00, 0x00, 0x00, 0x3F, 0x00, 0x00, 0x00, 0x00, 0x00, 0x00] t

/-- `USERDEFAULT` (R104): a USERCTL with nothing muted and every volume 1. -/
def Instr.userdefault : Instr :=
  .userctl ⟨false, false, false, false⟩ ⟨1, 1, 1, 1⟩

end Sys2Proof
end

