-- ==== Sys2Proof/WellFormed.lean ====
section
/-!
DEFINITION. Which commands the encoding can carry and the spec gives operands of legal
shape (spec/30_encoding.md R95 to R101).
-/

namespace Sys2Proof

/-- A register image is exactly 14 bytes (R62, R77). -/
abbrev imageLengthOk (F : List Byte) : Bool := F.length == 14

/-- A Track's rate is > 0 (R76, R98). -/
abbrev trackRateOk (t : Track) : Bool := decide (0 < t.rate)

/-- A command whose operands have the shape R95 to R100 give them.  Every rational is a
legal `now` or volume (R101), so only FRAME's image and LOAD's track can be wrong. -/
def Instr.wellFormed : Instr → Bool
  | .frame F _ => imageLengthOk F
  | .userctl _ _ => true
  | .reset => true
  | .load (.ok t) => trackRateOk t
  | .load (.fail _) => true
  | .play _ => true
  | .stop => true
  | .wake _ => true

end Sys2Proof
end

