-- ==== Sys2Proof/Decode.lean ====
section
/-!
DEFINITION. Command packets (spec/30_encoding.md R93 to R102): the opcode map, the decoder,
the encoder, and the host's `decodeTableWord`.

A packet is an opcode byte, a byte payload whose length the opcode fixes, and typed operands
that pass BESIDE the bytes (R93).  The typed operands are modelled as lines beside the packet,
one per kind (`TypedOperands`): a command takes the lines its opcode calls for and ignores the
rest (notes/assumptions/6.md).
-/

namespace Sys2Proof

/-- The opcodes of R94. -/
inductive Opcode where
  | FRAME | USERCTL | RESET | LOAD | PLAY | STOP | WAKE
  deriving DecidableEq, Repr

/-- The opcode byte of a command (R94). -/
def Opcode.byte : Opcode → Byte
  | .FRAME => 0x01
  | .USERCTL => 0x02
  | .RESET => 0x03
  | .LOAD => 0x10
  | .PLAY => 0x11
  | .STOP => 0x12
  | .WAKE => 0x13

/-- How many payload bytes follow the opcode byte (R94). -/
def Opcode.payloadLength : Opcode → Nat
  | .FRAME => 14
  | .USERCTL => 1
  | .RESET => 0
  | .LOAD => 0
  | .PLAY => 0
  | .STOP => 0
  | .WAKE => 0

/-- The command an opcode byte names, none where it is reserved (R94, R102). -/
def Opcode.ofByte? (b : Byte) : Option Opcode :=
  if b = 0x01 then some .FRAME
  else if b = 0x02 then some .USERCTL
  else if b = 0x03 then some .RESET
  else if b = 0x10 then some .LOAD
  else if b = 0x11 then some .PLAY
  else if b = 0x12 then some .STOP
  else if b = 0x13 then some .WAKE
  else none

/-- The operand lines beside a packet's bytes (R93). -/
structure TypedOperands where
  /-- `now` of FRAME, PLAY and WAKE. -/
  now : Rat
  /-- `vol` of USERCTL. -/
  vol : Paths Rat
  /-- `result` of LOAD. -/
  result : LoadResult
  deriving DecidableEq, Repr

/-- The operand lines where nothing is passed: times and volumes 0, and an empty track at
the default rate 50. -/
def TypedOperands.zero : TypedOperands where
  now := 0
  vol := ⟨0, 0, 0, 0⟩
  result := .ok ⟨[], 50⟩

/-- A command packet (R93). -/
structure Packet where
  opcode : Byte
  payload : List Byte
  operands : TypedOperands
  deriving DecidableEq, Repr

/-- Why a packet spells no command. -/
inductive DecodeError where
  /-- The opcode byte is reserved (R102). -/
  | ReservedOpcode
  /-- The packet ends inside its payload (R101).  A FRAME cut short is no decode error: it
  decodes as a FRAME with a short image, which FRAME itself refuses (R105). -/
  | PayloadShort
  deriving DecidableEq, Repr

/-- The mutes of a mask byte: bits 0 to 3 are A, B, C, N and bits 7:4 are ignored (R96). -/
def muteOfMask (M : Byte) : Paths Bool :=
  ⟨M.getLsbD 0, M.getLsbD 1, M.getLsbD 2, M.getLsbD 3⟩

/-- The mask byte of four mutes: `M = a + 2b + 4c + 8n` (R103). -/
def maskOfMute (m : Paths Bool) : Byte :=
  BitVec.ofNat 8 (m.A.toNat + 2 * m.B.toNat + 4 * m.C.toNat + 8 * m.N.toNat)

/-- Decode a packet: the command, and the bytes after its payload, which belong to the next
packet (R93: the first byte alone fixes a packet's length).  Total on all bytes. -/
def decode (p : Packet) : Except DecodeError (Instr × List Byte) :=
  match Opcode.ofByte? p.opcode with
  | none => .error .ReservedOpcode
  | some .FRAME => .ok (.frame (p.payload.take 14) p.operands.now, p.payload.drop 14)
  | some .USERCTL =>
    match p.payload with
    | [] => .error .PayloadShort
    | M :: rest => .ok (.userctl (muteOfMask M) p.operands.vol, rest)
  | some .RESET => .ok (.reset, p.payload)
  | some .LOAD => .ok (.load p.operands.result, p.payload)
  | some .PLAY => .ok (.play p.operands.now, p.payload)
  | some .STOP => .ok (.stop, p.payload)
  | some .WAKE => .ok (.wake p.operands.now, p.payload)

/-- The opcode of a command (R94). -/
def Instr.opcode : Instr → Opcode
  | .frame _ _ => .FRAME
  | .userctl _ _ => .USERCTL
  | .reset => .RESET
  | .load _ => .LOAD
  | .play _ => .PLAY
  | .stop => .STOP
  | .wake _ => .WAKE

/-- The packet of a command (R95 to R100).  Mask bits 7:4 are sent as 0, and an operand line
the command does not use is left as in `TypedOperands.zero`. -/
def encode : Instr → Packet
  | .frame F now => ⟨Opcode.FRAME.byte, F, { TypedOperands.zero with now := now }⟩
  | .userctl mute vol =>
    ⟨Opcode.USERCTL.byte, [maskOfMute mute], { TypedOperands.zero with vol := vol }⟩
  | .reset => ⟨Opcode.RESET.byte, [], TypedOperands.zero⟩
  | .load r => ⟨Opcode.LOAD.byte, [], { TypedOperands.zero with result := r }⟩
  | .play now => ⟨Opcode.PLAY.byte, [], { TypedOperands.zero with now := now }⟩
  | .stop => ⟨Opcode.STOP.byte, [], TypedOperands.zero⟩
  | .wake now => ⟨Opcode.WAKE.byte, [], { TypedOperands.zero with now := now }⟩

/-- The packet with further bytes behind its own. -/
def Packet.append (p : Packet) (more : List Byte) : Packet :=
  { p with payload := p.payload ++ more }

/-- Byte `i` of an instruction whose bits are `w`: bits `8i` to `8i+7`, and 0 from bit
`nbits` on. -/
def tableByte (nbits w i : Nat) : Byte :=
  BitVec.ofNat 8 ((w % 2 ^ nbits) / 2 ^ (8 * i))

/-- The packet of a table word: its bytes in order, as many payload bytes as its opcode
calls for, and every typed operand as in `TypedOperands.zero`. -/
def tablePacket (nbits w : Nat) : Packet where
  opcode := tableByte nbits w 0
  payload :=
    match Opcode.ofByte? (tableByte nbits w 0) with
    | none => []
    | some op => (List.range op.payloadLength).map fun i => tableByte nbits w (i + 1)
  operands := TypedOperands.zero

/-- The instruction the decoder reads from a table word. -/
def decodeTableWord (nbits w : Nat) : Option Instr :=
  match decode (tablePacket nbits w) with
  | .ok (i, _) => some i
  | .error _ => none

end Sys2Proof
end

