-- ==== Sys2Proof/Config.lean ====
section
/-!
DEFINITION. The implementation parameters of spec/00_scope.md R12 and the free values.

The numeric parameters are one record of plain data, `Params`, which State carries and no
step changes: "The model takes these parameters as arguments" (R12), "fixed for the
session" (spec/70_reset_and_hazards.md R239).  What the spec leaves OPEN or calls a draw is
an opaque constant with no body: `openClock…`, `startPhaseDraw`, `toneWaveDraw`,
`NOISE_BANDPASS`, `NOISE_SIGNAL`.
-/

namespace Sys2Proof

/-- The parameters of R12 that are numbers, the envelope-period function
`ENV_PERIOD_SECONDS` (as the finite list of periods at which it departs from its default
formula, so that every function of a 16-bit period is some such list;
notes/assumptions/5.md) and the register
index map `REG_INDEX` of R79. -/
structure Params where
  /-- `CHIP_CLOCK_HZ`: OPEN in the spec (D2). -/
  CHIP_CLOCK_HZ : Rat
  /-- `TONE_FLOOR_HZ` (D4). -/
  TONE_FLOOR_HZ : Rat
  /-- `NOISE_SCALE_HZ` (R110). -/
  NOISE_SCALE_HZ : Rat
  /-- `NOISE_BASE_HZ` (R110). -/
  NOISE_BASE_HZ : Rat
  /-- The pairs (ep, seconds) at which `ENV_PERIOD_SECONDS` is not its default (R131). -/
  ENV_PERIOD_OVERRIDE : List (BitVec 16 × Rat)
  /-- `ENV_PERIOD_TOLERANCE` (D6). -/
  ENV_PERIOD_TOLERANCE : Rat
  /-- `USER_VOL_MAX` (D19). -/
  USER_VOL_MAX : Rat
  /-- `DEFAULT_RATE`, ticks per second (R212). -/
  DEFAULT_RATE : Rat
  /-- `LEAD_WINDOW`, seconds (R191). -/
  LEAD_WINDOW : Rat
  /-- `POLL_INTERVAL`, seconds (R202). -/
  POLL_INTERVAL : Rat
  /-- `REG_INDEX` (R79, D43): entry `r` is the image index at which the register that the
  table of R80 puts at index `r` stands. -/
  REG_INDEX : Vector (Fin 14) 14
  deriving DecidableEq, Repr

/-- What R12, R54 and R79 ask of a parameter set.  `1 ≤ USER_VOL_MAX` is read from R31 and
R184 together: RESET writes the volume 1 and every volume is at most `USER_VOL_MAX`
(notes/assumptions/3.md). -/
structure Params.Valid (p : Params) : Prop where
  clock : 0 < p.CHIP_CLOCK_HZ
  toneFloor : 0 < p.TONE_FLOOR_HZ
  noiseBase : 0 < p.NOISE_BASE_HZ
  noiseTop : 0 < p.NOISE_SCALE_HZ * 31 + p.NOISE_BASE_HZ
  envOverride : ∀ e ∈ p.ENV_PERIOD_OVERRIDE, 0 < e.2
  tolerance : 0 ≤ p.ENV_PERIOD_TOLERANCE
  userVolMax : 1 ≤ p.USER_VOL_MAX
  defaultRate : 0 < p.DEFAULT_RATE
  leadWindow : 0 ≤ p.LEAD_WINDOW
  pollInterval : 0 < p.POLL_INTERVAL
  regIndex : p.REG_INDEX.toList.Nodup

/-- The register index map of R80: register `r` stands at index `r`. -/
def Config.defaultRegIndex : Vector (Fin 14) 14 :=
  #v[0, 1, 2, 3, 4, 5, 6, 7, 8, 9, 10, 11, 12, 13]

/-- The parameters of R12 at their defaults, for a given master clock. -/
def Config.defaults (clock : Rat) : Params where
  CHIP_CLOCK_HZ := clock
  TONE_FLOOR_HZ := 1
  NOISE_SCALE_HZ := 200
  NOISE_BASE_HZ := 1000
  ENV_PERIOD_OVERRIDE := []
  ENV_PERIOD_TOLERANCE := 0
  USER_VOL_MAX := 1
  DEFAULT_RATE := 50
  LEAD_WINDOW := 8 / 100
  POLL_INTERVAL := 25 / 1000
  REG_INDEX := Config.defaultRegIndex

/-- The test configuration of spec/95_test_vectors.md section 0: clock 2 000 000 Hz. -/
def Config.test : Params := Config.defaults 2000000

/-- Free value (D2): numerator, less one, of the open master clock. -/
opaque Config.openClockNumPred : Nat

/-- Free value (D2): denominator, less one, of the open master clock. -/
opaque Config.openClockDenPred : Nat

/-- `CHIP_CLOCK_HZ` of the machine at power-on: OPEN, so any rational > 0 (D2, R239).  Every
positive rational has this form (notes/assumptions/2.md). -/
def Config.openClock : Rat :=
  ((Config.openClockNumPred + 1 : Nat) : Rat) / ((Config.openClockDenPred + 1 : Nat) : Rat)

/-- The parameters of the machine at power-on: the defaults of R12 at the open clock. -/
def Config.params : Params := Config.defaults Config.openClock

/-- Free value (D25, U15): the oscillator start phase drawn for a voice, before it is
brought into [0, 1). -/
opaque Config.startPhaseDraw : Voice → Rat

/-- The OPEN parameters from which the audible signal is made (R167 to R169).  They are
arguments of the output tap only; no command reads them. -/
structure Signals where
  /-- `TONE_WAVE`: the waveform over one period (D25). -/
  TONE_WAVE : Rat → Rat
  /-- `NOISE_BANDPASS`: centre frequency as a function of time, input signal, time (D26). -/
  NOISE_BANDPASS : (Rat → Rat) → (Rat → Rat) → Rat → Rat
  /-- `NOISE_SIGNAL`: a broadband signal (D26, U14). -/
  NOISE_SIGNAL : Rat → Rat

/-- Free value (D25, U12): the waveform, before it is brought into [-1, 1]. -/
opaque Config.toneWaveDraw : Rat → Rat

/-- `TONE_WAVE` (R12): OPEN, but a function into [-1, 1].  Every such function has this
form. -/
def Config.TONE_WAVE (ph : Rat) : Rat := min 1 (max (-1) (Config.toneWaveDraw ph))

/-- Free value (D26, U13): the filter. -/
opaque Config.NOISE_BANDPASS : (Rat → Rat) → (Rat → Rat) → Rat → Rat

/-- Free value (D26, U14): the noise. -/
opaque Config.NOISE_SIGNAL : Rat → Rat

/-- The machine's own signals: all OPEN. -/
def Config.signals : Signals where
  TONE_WAVE := Config.TONE_WAVE
  NOISE_BANDPASS := Config.NOISE_BANDPASS
  NOISE_SIGNAL := Config.NOISE_SIGNAL

end Sys2Proof
end

