-- ==== Sys2Proof/Machine/Parameters.lean ====
section
/-!
DEFINITION. The derived envelope period (spec/41_envelope_generator.md R131) and the other
quantities computed from the parameters alone.
-/

namespace Sys2Proof.Machine

/-- The default of `ENV_PERIOD_SECONDS`: `256 · max(ep, 1) / CHIP_CLOCK_HZ` (R131). -/
def defaultEnvPeriod (clock : Rat) (ep : BitVec 16) : Rat :=
  256 * ((Nat.max ep.toNat 1 : Nat) : Rat) / clock

/-- `ENV_PERIOD_SECONDS(ep)`, in seconds (R131): the parameter's own value where it departs
from the default, else the default. -/
def ENV_PERIOD_SECONDS (p : Params) (ep : BitVec 16) : Rat :=
  match p.ENV_PERIOD_OVERRIDE.find? (fun e => e.1 == ep) with
  | some e => e.2
  | none => defaultEnvPeriod p.CHIP_CLOCK_HZ ep

/-- The audio-clock time of the `j`-th nominal wake-up after one at `t0`: the host issues
WAKE "nominally every `POLL_INTERVAL` seconds" (R202).  The actual times are a draw. -/
def nominalWake (p : Params) (t0 : Rat) (j : Nat) : Rat :=
  t0 + (j : Rat) * p.POLL_INTERVAL

/-- `frac(x) = x − floor(x)` (R17). -/
def frac (x : Rat) : Rat := x - (x.floor : Rat)

end Sys2Proof.Machine
end

