-- ==== Sys2Proof/Machine/State.lean ====
section
/-!
DEFINITION. The state of the block `S` (spec/10_state.md R25 to R58), of the host sequencer
`H` (spec/45_host_sequencer.md R191, R192), of the command port between them, and the
parameters, all plain data; the power-on state; the reasons a step can stop.
-/

namespace Sys2Proof.Machine

/-- Who raises it, and whether it is safe or unsafe.  The block itself raises no exception
(spec/60_exceptions.md R216). -/
inductive Fault where
  /-- WAKE, where `H.PLAYING` is true and `H.TRACK` is none: the pseudocode of R200 then
  reads the frames of a Track that is not there.  SAFE: PLAY sets `H.PLAYING` only with a
  Track and nothing removes one, so no run from power-on reaches it
  (notes/assumptions/14.md). -/
  | playingWithoutTrack
  deriving DecidableEq, Repr

/-- Who raises it, and whether it is safe or unsafe. -/
inductive Refusal where
  /-- `exec`, for an instruction that has no meaning yet (none is left).  SAFE. -/
  | notModelled (mnemonic : String)
  deriving DecidableEq, Repr

/-- The four refusal reasons of the spec (R215).  A command so refused is NOT a refusal of
this model: the spec gives it an effect, which is `S.REFUSED` becoming true
(notes/assumptions/1.md). -/
inductive RefusalReason where
  | FrameLength
  | TimeReversal
  | ReservedOpcode
  | BadRate
  deriving DecidableEq, Repr

/-- What the command port tells the caller: the reason of a refused command (R215, R220) and
the failure of a LOAD (R196, R218). -/
inductive Report where
  | refused (reason : RefusalReason)
  | loadFailed (kind : LoadFailure)
  deriving DecidableEq, Repr

/-- The envelope's two logical states (R39). -/
inductive EnvMode where
  | Resynchronizing
  | Running
  deriving DecidableEq, Repr

/-- `S.ENV` (R33 to R39). -/
structure Envelope where
  shape : Option (BitVec 4)
  period : Rat
  phase : Rat
  level : Rat
  lastTime : Rat
  cycleDone : Bool
  mode : EnvMode
  deriving DecidableEq, Repr

/-- The registers that the targets (R41 to R46) and the outputs (R48) both have. -/
structure VoiceRegs where
  freq : Voices Rat
  gain : Voices Rat
  on : Voices Bool
  nfreq : Rat
  ngain : Rat
  non : Bool
  deriving DecidableEq, Repr

/-- `S.OUT` (R48, R49): the output registers and the time of the last apply. -/
structure Output extends VoiceRegs where
  time : Option Rat
  deriving DecidableEq, Repr

/-- One entry `(t, o)` of the output history (R50). -/
structure HistEntry where
  t : Rat
  o : VoiceRegs
  deriving DecidableEq, Repr

/-- The block state `S` (R25). -/
structure Block where
  /-- The mute flags (R30). -/
  MUTE : Paths Bool
  /-- The user volumes (R31). -/
  UVOL : Paths Rat
  /-- The envelope state (R33 to R40). -/
  ENV : Envelope
  /-- The target registers (R41 to R47). -/
  TGT : VoiceRegs
  /-- The output registers (R48, R49). -/
  OUT : Output
  /-- The output history, oldest entry first (R50). -/
  HIST : List HistEntry
  /-- The phase of each tone oscillator at the session's first instant (R51); its phase at
  any later time is a function of this and the history (R167; notes/assumptions/8.md). -/
  OSC : Voices Rat
  /-- The refusal mark (R58). -/
  REFUSED : Bool
  deriving DecidableEq, Repr

/-- The host sequencer state `H` (R191). -/
structure Sequencer where
  TRACK : Option Track
  IDX : Nat
  NEXT : Rat
  PLAYING : Bool
  deriving DecidableEq, Repr

/-- The command port: the model's own fields, for the one sequential command stream of R66
and R194 and for what is reported to the caller (notes/assumptions/7.md). -/
structure Port where
  /-- The commands not yet executed, in issue order. -/
  pending : List Packet
  /-- What has been reported, oldest first. -/
  reports : List Report
  deriving DecidableEq, Repr

/-- The whole machine. -/
structure State where
  /-- The parameters, fixed for the session (R12, R239). -/
  params : Params
  /-- The block. -/
  S : Block
  /-- The host sequencer. -/
  H : Sequencer
  /-- The command port. -/
  port : Port
  deriving DecidableEq, Repr

/-- The power-on values of the target and output registers: silent (R41 to R46, R48). -/
def VoiceRegs.silent (p : Params) : VoiceRegs where
  freq := Voices.ofFn fun _ => p.TONE_FLOOR_HZ
  gain := Voices.ofFn fun _ => 0
  on := Voices.ofFn fun _ => false
  nfreq := p.NOISE_BASE_HZ
  ngain := 0
  non := false

/-- The power-on values of the envelope state: un-armed (R33 to R39). -/
def Envelope.initial (p : Params) : Envelope where
  shape := none
  period := ENV_PERIOD_SECONDS p 0
  phase := 0
  level := 1
  lastTime := 0
  cycleDone := false
  mode := .Resynchronizing

/-- A new block instance (R56), its oscillators at the phases `osc`. -/
def Block.powerOn (p : Params) (osc : Voices Rat) : Block where
  MUTE := Paths.ofFn fun _ => false
  UVOL := Paths.ofFn fun _ => 1
  ENV := Envelope.initial p
  TGT := VoiceRegs.silent p
  OUT := { VoiceRegs.silent p with time := none }
  HIST := []
  OSC := osc
  REFUSED := false

/-- The initial host state (R192). -/
def Sequencer.initial : Sequencer where
  TRACK := none
  IDX := 0
  NEXT := 0
  PLAYING := false

/-- The machine at power-on, for any parameters and any oscillator start phases (R237). -/
def State.powerOn (p : Params) (osc : Voices Rat) : State where
  params := p
  S := Block.powerOn p osc
  H := Sequencer.initial
  port := ⟨[], []⟩

/-- The machine right after power-on: the default parameters at the open clock, and
oscillator start phases that are draws in [0, 1) (R51, R167; notes/assumptions/8.md, 20.md). -/
def State.reset : State :=
  State.powerOn Config.params (Voices.ofFn fun X => frac (Config.startPhaseDraw X))

end Sys2Proof.Machine
end

