-- ==== Sys2Proof/Machine/Ops.lean ====
section
/-!
DEFINITION. The named operations every command is written over: the arithmetic primitives of
spec/00_scope.md R17, the one addressable space (spec/20_memory.md R59), the writes of the
state's parts, and being REFUSED (spec/60_exceptions.md R215), which is this hardware's one
exceptional event: there is no trap entry and no trap return (R221, R222).
-/

namespace Sys2Proof.Machine

/-- `clamp(x, lo, hi) = min(hi, max(lo, x))` (R17). -/
def clamp (x lo hi : Rat) : Rat := min hi (max lo x)

/-- `clamp01(x) = min(1, max(0, x))` (R17). -/
def clamp01 (x : Rat) : Rat := min 1 (max 0 x)

/-- `|x|` (R17). -/
def absRat (x : Rat) : Rat := if x < 0 then -x else x

/-- The greatest element of the non-empty set `x, xs` (R17). -/
def maxOf (x : Rat) (xs : List Rat) : Rat := xs.foldl max x

/-- The register image of a FRAME's bytes, none where they are not exactly 14 (R62). -/
def imageOf? (F : List Byte) : Option Image :=
  if h : F.length = 14 then some (Vector.mk F.toArray (by simpa using h)) else none

/-- `MemRead(i, 1)`, a synonym of `F[i]` (R15): the byte at index `i` of the register image,
the block's only addressable space.  "Index 14 and above do not exist" (R59). -/
def memRead (F : Image) (i : Nat) : Option Byte := F[i]?

/-- The byte of the register that the table of R80 puts at index `r`, found through
`REG_INDEX` (R79). -/
def regByte (p : Params) (F : Image) (r : Fin 14) : Byte := F.get (p.REG_INDEX.get r)

/-- Write the block's part of the state. -/
def State.withS (s : State) (S : Block) : State := { s with S := S }

/-- Write the host sequencer's part of the state. -/
def State.withH (s : State) (H : Sequencer) : State := { s with H := H }

/-- Write the pending commands. -/
def State.withPending (s : State) (ps : List Packet) : State :=
  { s with port := { s.port with pending := ps } }

/-- Report to the caller. -/
def State.report (s : State) (r : Report) : State :=
  { s with port := { s.port with reports := s.port.reports ++ [r] } }

/-- `refuse <Reason>`: a refused command leaves the state unchanged except that `S.REFUSED`
becomes true (R215), and its reason is reported (R220). -/
def State.refuse (s : State) (r : RefusalReason) : State :=
  (s.withS { s.S with REFUSED := true }).report (.refused r)

/-- What RESET writes of the block: the user controls, the envelope and the targets, and
nothing else (R184, R185). -/
def Block.restoreDefaults (p : Params) (S : Block) : Block :=
  { S with
    MUTE := Paths.ofFn fun _ => false
    UVOL := Paths.ofFn fun _ => 1
    ENV := Envelope.initial p
    TGT := VoiceRegs.silent p }

/-- `block RESET()`, as a command the caller or the host issues (R184, R187). -/
def State.blockReset (s : State) : State := s.withS (s.S.restoreDefaults s.params)

end Sys2Proof.Machine
end

