-- ==== Sys2Proof/Machine/Operands.lean ====
section
/-!
DEFINITION. The operand forms of FRAME: the fields assembled from a register image
(spec/30_encoding.md R80 to R91) and the quantities computed from a field alone
(spec/40_register_decoder.md R107, R110, R112).
-/

namespace Sys2Proof.Machine

/-- The register of R80 that holds the fine tone period of a voice: index 2k (R81). -/
def regFine : Voice → Fin 14
  | .A => 0
  | .B => 2
  | .C => 4

/-- The register of R80 that holds the coarse tone period of a voice: index 2k+1 (R81). -/
def regCoarse : Voice → Fin 14
  | .A => 1
  | .B => 3
  | .C => 5

/-- The register of R80 that holds the volume byte of a voice: index 8+k (R86). -/
def regVolume : Voice → Fin 14
  | .A => 8
  | .B => 9
  | .C => 10

/-- The fields of a register image. -/
structure Fields where
  /-- Tone periods, 12 bits. -/
  tp : Voices (BitVec 12)
  /-- Tone-disable bits. -/
  toneOff : Voices Bool
  /-- Noise-disable bits. -/
  noiseOff : Voices Bool
  /-- Static levels, 4 bits. -/
  vol : Voices (BitVec 4)
  /-- Envelope-select bits. -/
  envSel : Voices Bool
  /-- Noise period, 5 bits. -/
  np : BitVec 5
  /-- Envelope period, 16 bits. -/
  ep : BitVec 16
  /-- Envelope shape, 4 bits. -/
  shape : BitVec 4
  deriving DecidableEq, Repr

/-- `tp[X] = F[2k+1][3:0] ‖ F[2k][7:0]` (R83). -/
def tonePeriod (p : Params) (F : Image) (X : Voice) : BitVec 12 :=
  (regByte p F (regCoarse X)).extractLsb' 0 4 ++ regByte p F (regFine X)

/-- `toneOff[X] = F[7][k]` (R85). -/
def toneDisable (p : Params) (F : Image) (X : Voice) : Bool :=
  (regByte p F 7).getLsbD X.k

/-- `noiseOff[X] = F[7][3 + k]` (R85). -/
def noiseDisable (p : Params) (F : Image) (X : Voice) : Bool :=
  (regByte p F 7).getLsbD (3 + X.k)

/-- `vol[X] = F[8 + k][3:0]` (R86). -/
def staticLevel (p : Params) (F : Image) (X : Voice) : BitVec 4 :=
  (regByte p F (regVolume X)).extractLsb' 0 4

/-- `envSel[X] = F[8 + k][4]` (R86). -/
def envSelect (p : Params) (F : Image) (X : Voice) : Bool :=
  (regByte p F (regVolume X)).getLsbD 4

/-- `np = F[6][4:0]` (R84). -/
def noisePeriod (p : Params) (F : Image) : BitVec 5 := (regByte p F 6).extractLsb' 0 5

/-- `ep = F[12][7:0] ‖ F[11][7:0]` (R88). -/
def envPeriod (p : Params) (F : Image) : BitVec 16 := regByte p F 12 ++ regByte p F 11

/-- `shape = F[13][3:0]` (R89). -/
def envShape (p : Params) (F : Image) : BitVec 4 := (regByte p F 13).extractLsb' 0 4

/-- All fields of an image (R105, step 1).  Every field is unsigned and none is scaled
(R90). -/
def fieldsOf (p : Params) (F : Image) : Fields where
  tp := Voices.ofFn (tonePeriod p F)
  toneOff := Voices.ofFn (toneDisable p F)
  noiseOff := Voices.ofFn (noiseDisable p F)
  vol := Voices.ofFn (staticLevel p F)
  envSel := Voices.ofFn (envSelect p F)
  np := noisePeriod p F
  ep := envPeriod p F
  shape := envShape p F

/-- Shape bit 3, Continue (R89).  It selects nothing (R144). -/
def shapeContinue (shape : BitVec 4) : Bool := shape.getLsbD 3

/-- Shape bit 2, Attack (R89). -/
def shapeAttack (shape : BitVec 4) : Bool := shape.getLsbD 2

/-- Shape bit 1, Alternate (R89). -/
def shapeAlternate (shape : BitVec 4) : Bool := shape.getLsbD 1

/-- Shape bit 0, Hold (R89). -/
def shapeHold (shape : BitVec 4) : Bool := shape.getLsbD 0

/-- The tone frequency, in Hz (R107): `CHIP_CLOCK_HZ / (16 · tp)`, or the floor where the
period is 0. -/
def TONE_FREQ (p : Params) (tp : BitVec 12) : Rat :=
  if tp ≠ 0 then p.CHIP_CLOCK_HZ / (16 * (tp.toNat : Rat)) else p.TONE_FLOOR_HZ

/-- The noise filter's centre frequency, in Hz (R110). -/
def NOISE_FREQ (p : Params) (np : BitVec 5) : Rat :=
  p.NOISE_SCALE_HZ * (np.toNat : Rat) + p.NOISE_BASE_HZ

/-- The channel level of voice X (R112): the envelope level where the envelope flag is set,
else the static level over 15. -/
def channelLevel (f : Fields) (envLevel : Rat) (X : Voice) : Rat :=
  if f.envSel.get X then envLevel else ((f.vol.get X).toNat : Rat) / 15

/-- The effective level of voice X (R117): its channel level times its user volume, without
the tone pass factor. -/
def effectiveLevel (f : Fields) (envLevel : Rat) (S : Block) (X : Voice) : Rat :=
  channelLevel f envLevel X * S.UVOL.get X.path

end Sys2Proof.Machine
end

