-- ==== Sys2Proof/Machine/Flags.lean ====
section
/-!
DEFINITION. Every boolean the commands compute.  The block has no condition codes; its only
boolean state is the mute flags, the envelope's mode and cycle-done bit, and the on/off
targets and outputs (spec/10_state.md R29).
-/

namespace Sys2Proof.Machine

/-- The retrigger condition (R132): no shape yet, another shape, or a derived period further
than the tolerance from the stored one. -/
def retriggers (p : Params) (E : Envelope) (shape : BitVec 4) (T : Rat) : Bool :=
  decide (E.shape ≠ some shape) || decide (p.ENV_PERIOD_TOLERANCE < absRat (T - E.period))

/-- The cycle-done bit after an advance to the accumulated phase `acc` (R137). -/
def cycleDoneAfter (E : Envelope) (acc : Rat) : Bool := E.cycleDone || decide (1 ≤ acc)

/-- Voice X's tone path passes: not muted and not disabled by its mixer bit (R113). -/
def tonePasses (f : Fields) (S : Block) (X : Voice) : Bool :=
  !S.MUTE.get X.path && !f.toneOff.get X

/-- The tone on/off target of voice X (R115). -/
def toneOn (f : Fields) (S : Block) (X : Voice) : Bool :=
  !f.toneOff.get X && (f.envSel.get X || decide (0 < (f.vol.get X).toNat)) && !S.MUTE.get X.path

/-- Voice X contributes to the noise path (R117). -/
def contributes (f : Fields) (envLevel : Rat) (S : Block) (X : Voice) : Bool :=
  !f.noiseOff.get X && !S.MUTE.get X.path && decide (0 < effectiveLevel f envLevel S X)

/-- `K`: the noise contributors, in the order A, B, C (R117, R118). -/
def contributors (f : Fields) (envLevel : Rat) (S : Block) : List Voice :=
  Voice.all.filter (contributes f envLevel S)

/-- The noise on/off target (R118): `K ≠ ∅ and not S.MUTE[N]`. -/
def noiseOn (f : Fields) (envLevel : Rat) (S : Block) : Bool :=
  !(contributors f envLevel S).isEmpty && !S.MUTE.get .N

end Sys2Proof.Machine
end

