-- ==== Sys2Proof/Machine/Envelope.lean ====
section
/-!
DEFINITION. The envelope generator (spec/41_envelope_generator.md R130 to R156).
-/

namespace Sys2Proof.Machine

/-- `RISE_REPEAT(p)` (R139). -/
def RISE_REPEAT (p : Rat) : Rat := p

/-- `RISE_HOLD(p, cd)` (R140). -/
def RISE_HOLD (p : Rat) (cd : Bool) : Rat := if cd then 1 else p

/-- `TRIANGLE(At, p)` (R141). -/
def TRIANGLE (At : Bool) (p : Rat) : Rat :=
  if At then 1 - absRat (1 - 2 * p) else absRat (1 - 2 * p)

/-- `FALL(p)` (R142). -/
def FALL (p : Rat) : Rat := 1 - p

/-- `LEVEL(shape, p, cd)`: the wave family of a shape, by the first matching line (R138). -/
def LEVEL (shape : BitVec 4) (p : Rat) (cd : Bool) : Rat :=
  if shapeAttack shape && !shapeAlternate shape && !shapeHold shape then RISE_REPEAT p
  else if shapeAttack shape && shapeHold shape then RISE_HOLD p cd
  else if shapeAlternate shape then TRIANGLE (shapeAttack shape) p
  else FALL p

/-- The retrigger action (R133). -/
def envRetrigger (shape : BitVec 4) (T now : Rat) : Envelope where
  shape := some shape
  period := T
  phase := 0
  level := 1
  lastTime := now
  cycleDone := false
  mode := .Resynchronizing

/-- The accumulated phase of an advance: the phase plus elapsed time over the STORED period
(R134, R135, R149). -/
def accumulatedPhase (E : Envelope) (now : Rat) : Rat :=
  E.phase + (now - E.lastTime) / E.period

/-- The advance action (R134 to R138, R143). -/
def envAdvance (E : Envelope) (shape : BitVec 4) (now : Rat) : Envelope :=
  let acc := accumulatedPhase E now
  { E with
    cycleDone := cycleDoneAfter E acc
    phase := frac acc
    level := clamp01 (LEVEL shape (frac acc) (cycleDoneAfter E acc))
    lastTime := now
    mode := .Running }

/-- `ENV_UPDATE(shape, T, now)` (R130). -/
def ENV_UPDATE (p : Params) (E : Envelope) (shape : BitVec 4) (T now : Rat) : Envelope :=
  if retriggers p E shape T then envRetrigger shape T now else envAdvance E shape now

end Sys2Proof.Machine
end

