-- ==== Sys2Proof/Machine/Decoder.lean ====
section
/-!
DEFINITION. The register decoder's targets (spec/40_register_decoder.md R105, steps 3 and 4,
and R107 to R120).
-/

namespace Sys2Proof.Machine

/-- The tone gain target of voice X (R114). -/
def toneGain (f : Fields) (envLevel : Rat) (S : Block) (X : Voice) : Rat :=
  clamp01 (channelLevel f envLevel X * S.UVOL.get X.path * (if tonePasses f S X then 1 else 0))

/-- The noise gain target (R119): where noise is on, the noise volume times the loudest
contributor's effective level, clamped; else 0. -/
def noiseGain (f : Fields) (envLevel : Rat) (S : Block) : Rat :=
  match contributors f envLevel S with
  | [] => 0
  | X :: Xs =>
    if noiseOn f envLevel S then
      clamp01 (S.UVOL.get .N *
        maxOf (effectiveLevel f envLevel S X) (Xs.map (effectiveLevel f envLevel S)))
    else 0

/-- The target registers a FRAME computes from its fields, the envelope level its own update
produced (R106) and the user controls. -/
def targets (p : Params) (f : Fields) (envLevel : Rat) (S : Block) : VoiceRegs where
  freq := Voices.ofFn fun X => TONE_FREQ p (f.tp.get X)
  gain := Voices.ofFn (toneGain f envLevel S)
  on := Voices.ofFn (toneOn f S)
  nfreq := NOISE_FREQ p f.np
  ngain := noiseGain f envLevel S
  non := noiseOn f envLevel S

/-- The decode part of FRAME (R105, steps 1 to 4; R123): it writes `S.ENV` and `S.TGT`. -/
def decodeFrame (p : Params) (F : Image) (now : Rat) (S : Block) : Block :=
  let f := fieldsOf p F
  let E := ENV_UPDATE p S.ENV f.shape (ENV_PERIOD_SECONDS p f.ep) now
  { S with ENV := E, TGT := targets p f E.level S }

end Sys2Proof.Machine
end

