-- ==== Sys2Proof/Machine/VoiceBank.lean ====
section
/-!
DEFINITION. The voice bank: APPLY (spec/42_voice_bank.md R157 to R164), and the block's FRAME
as decode followed by apply.
-/

namespace Sys2Proof.Machine

/-- The targets as APPLY writes them to the outputs: each gain clamped to [0, 1] (R162). -/
def appliedRegs (T : VoiceRegs) : VoiceRegs :=
  { T with
    gain := Voices.ofFn fun X => clamp01 (T.gain.get X)
    ngain := clamp01 T.ngain }

/-- `APPLY(now)` (R159). -/
def APPLY (now : Rat) (S : Block) : Block :=
  { S with
    OUT := { appliedRegs S.TGT with time := some now }
    HIST := S.HIST ++ [⟨now, appliedRegs S.TGT⟩] }

/-- `now` is earlier than the last apply (R160). -/
def earlierThanLastApply (S : Block) (now : Rat) : Bool :=
  match S.OUT.time with
  | none => false
  | some t0 => decide (now < t0)

/-- The FRAME of a 14-byte image that is not refused: decode, then apply (R105). -/
def frameEffect (p : Params) (F : Image) (now : Rat) (S : Block) : Block :=
  APPLY now (decodeFrame p F now S)

/-- `block FRAME(F, now)` for a 14-byte image: refused where time would go backwards (R160),
else its effect. -/
def State.issueFrame (s : State) (F : Image) (now : Rat) : State :=
  if earlierThanLastApply s.S now then s.refuse .TimeReversal
  else s.withS (frameEffect s.params F now s.S)

end Sys2Proof.Machine
end

