-- ==== Sys2Proof/Machine/BlockCommands.lean ====
section
/-!
DEFINITION. The meanings of the block's commands: FRAME (spec/40_register_decoder.md R105),
USERCTL and RESET (spec/43_control_commands.md R179, R184).
-/

namespace Sys2Proof.Machine

/-- FRAME (R105): refused where the image is not 14 bytes long (R62), then where time would
go backwards (R160), in that order (R220); else decoded and applied. -/
def execFrame (F : List Byte) (now : Rat) (s : State) : Host.Outcome State Fault Refusal :=
  match imageOf? F with
  | none => .next (s.refuse .FrameLength)
  | some img => .next (s.issueFrame img now)

/-- What USERCTL writes of the block (R179, R180). -/
def Block.writeUserControls (p : Params) (mute : Paths Bool) (vol : Paths Rat) (S : Block) :
    Block :=
  { S with
    MUTE := mute
    UVOL := Paths.ofFn fun V => clamp (vol.get V) 0 p.USER_VOL_MAX }

/-- USERCTL (R179). -/
def execUserctl (mute : Paths Bool) (vol : Paths Rat) (s : State) :
    Host.Outcome State Fault Refusal :=
  .next (s.withS (s.S.writeUserControls s.params mute vol))

/-- RESET (R184). -/
def execReset (s : State) : Host.Outcome State Fault Refusal := .next s.blockReset

end Sys2Proof.Machine
end

