-- ==== Sys2Proof/Machine/HostCommands.lean ====
section
/-!
DEFINITION. The meanings of the host sequencer's commands LOAD, PLAY, STOP and WAKE
(spec/45_host_sequencer.md R195 to R214).
-/

namespace Sys2Proof.Machine

/-- What STOP does (R199): nothing where Stopped; else enter Stopped and reset the block. -/
def State.stopPlayback (s : State) : State :=
  if s.H.PLAYING then (s.withH { s.H with PLAYING := false }).blockReset else s

/-- What a LOAD of a Track with a legal rate does (R195, R197): the full STOP, then the Track
is installed at frame 0 and tick time 0. -/
def State.installTrack (s : State) (track : Track) : State :=
  s.stopPlayback.withH
    { s.stopPlayback.H with TRACK := some track, IDX := 0, NEXT := 0 }

/-- LOAD (R195): a failure is reported and changes nothing (R196); a Track whose rate is not
> 0 is refused (R101); any other is installed. -/
def execLoad (result : LoadResult) (s : State) : Host.Outcome State Fault Refusal :=
  match result with
  | .fail kind => .next (s.report (.loadFailed kind))
  | .ok track =>
    if track.rate ≤ 0 then .next (s.refuse .BadRate) else .next (s.installTrack track)

/-- There is a Track and it has a frame (R198). -/
def Sequencer.hasFrames (H : Sequencer) : Bool :=
  match H.TRACK with
  | none => false
  | some track => !track.frames.isEmpty

/-- PLAY (R198): a no-op while Playing and where there is no frame to play; else Playing from
frame 0, the first tick at `now`. -/
def execPlay (now : Rat) (s : State) : Host.Outcome State Fault Refusal :=
  if s.H.PLAYING then .next s
  else if s.H.hasFrames then
    .next (s.withH { s.H with PLAYING := true, IDX := 0, NEXT := now })
  else .next s

/-- STOP (R199). -/
def execStop (s : State) : Host.Outcome State Fault Refusal := .next s.stopPlayback

/-- One turn of WAKE's loop (R200): issue the frame at the wake's own `now` (R210), then
count it and move the virtual tick time on by one tick period (notes/assumptions/16.md). -/
def State.emitFrame (s : State) (rate now : Rat) (F : Image) : State :=
  let t := s.issueFrame F now
  t.withH { t.H with IDX := t.H.IDX + 1, NEXT := t.H.NEXT + 1 / rate }

/-- WAKE's loop over the frames not yet sent (R200): while the virtual tick time is within
the lead window. -/
def State.emitDue (rate now : Rat) : List Image → State → State
  | [], s => s
  | F :: Fs, s =>
    if s.H.NEXT < now + s.params.LEAD_WINDOW then
      State.emitDue rate now Fs (s.emitFrame rate now F)
    else s

/-- After the loop (R200, R203): where every frame has been sent, enter Stopped and reset the
block. -/
def State.endOfTrack (s : State) (n : Nat) : State :=
  if s.H.IDX = n then (s.withH { s.H with PLAYING := false }).blockReset else s

/-- WAKE (R200): a no-op while Stopped; else emit every frame that is due, all at this `now`,
and end the track if that was its last. -/
def execWake (now : Rat) (s : State) : Host.Outcome State Fault Refusal :=
  if s.H.PLAYING then
    match s.H.TRACK with
    | none => .fault .playingWithoutTrack
    | some track =>
      .next ((State.emitDue track.rate now (track.frames.drop s.H.IDX) s).endOfTrack
        track.frames.length)
  else .next s

/-- The Track an external decoder delivers whose source format may give no rate: "A Track
whose rate is unspecified arrives with rate = `DEFAULT_RATE`" (R98, R212;
notes/assumptions/21.md). -/
def deliveredTrack (p : Params) (frames : List Image) (rate : Option Rat) : Track :=
  ⟨frames, rate.getD p.DEFAULT_RATE⟩

end Sys2Proof.Machine
end

