-- ==== Sys2Proof/Machine/Dispatch.lean ====
section
/-! DEFINITION. One arm per command: each calls its meaning. -/

namespace Sys2Proof.Machine

def exec (i : Instr) (s : State) : Host.Outcome State Fault Refusal :=
  match i with
  | .frame F now => Sys2Proof.Machine.execFrame F now s
  | .userctl mute vol => Sys2Proof.Machine.execUserctl mute vol s
  | .reset => Sys2Proof.Machine.execReset s
  | .load result => Sys2Proof.Machine.execLoad result s
  | .play now => Sys2Proof.Machine.execPlay now s
  | .stop => Sys2Proof.Machine.execStop s
  | .wake now => Sys2Proof.Machine.execWake now s

end Sys2Proof.Machine
end

