-- ==== Sys2Proof/Machine/Fetch.lean ====
section
/-!
DEFINITION. How the port hands the next command to the block (spec/20_memory.md R66,
spec/30_encoding.md R93, R101, R102).
-/

namespace Sys2Proof.Machine

/-- The bytes behind a packet's own are the next packet, its opcode first (R93).  The operand
lines stay beside them (notes/assumptions/10.md). -/
def leftoverPackets (operands : TypedOperands) : List Byte → List Packet
  | [] => []
  | b :: bs => [⟨b, bs, operands⟩]

/-- The refusal of a packet that spells no command (R101, R102; notes/assumptions/11.md). -/
def refusalOf : DecodeError → RefusalReason
  | .ReservedOpcode => .ReservedOpcode
  | .PayloadShort => .FrameLength

/-- What of a packet that spells no command is left in the stream: a reserved opcode has no
payload (R94), and a packet that ends inside its payload leaves nothing. -/
def leftoverOfError (p : Packet) : DecodeError → List Packet
  | .ReservedOpcode => leftoverPackets p.operands p.payload
  | .PayloadShort => []

end Sys2Proof.Machine
end

