-- ==== Sys2Proof/Machine/Step.lean ====
section
/-!
DEFINITION. One step of the machine: the next command of the one sequential stream is taken,
decoded and executed whole (spec/20_memory.md R66).
-/

namespace Sys2Proof.Machine

/-- One step.  With no command pending the machine waits, unchanged (R230, R235;
notes/assumptions/12.md).  A packet
that spells no command is refused (R101, R102). -/
def step (s : State) : Host.Outcome State Fault Refusal :=
  match s.port.pending with
  | [] => .next s
  | p :: ps =>
    match decode p with
    | .ok (i, more) => exec i (s.withPending (leftoverPackets p.operands more ++ ps))
    | .error e => .next ((s.withPending (leftoverOfError p e ++ ps)).refuse (refusalOf e))

/-- The state with the packet of a table word put before the pending commands, where the next
step takes its command from (notes/assumptions/13.md). -/
def State.withFetchWord (s : State) (nbits w : Nat) : State :=
  s.withPending (tablePacket nbits w :: s.port.pending)

end Sys2Proof.Machine
end

