-- ==== Sys2Proof/Machine/TextSyntax.lean ====
section
/-!
DEFINITION. The text syntax of commands, one command a line, as a reader from characters to
commands (spec/30_encoding.md R103, R104).

DESIGN CHOICE (notes/assumptions/15.md), since R103 gives the forms and no more: `;` starts a
comment, but between `[` and `]` it separates the frames of a LOAD; and a line outside the
forms of R103 and R104 is read as no command.
-/

namespace Sys2Proof.Machine

/-- The text before a comment: up to the first `;` that stands outside brackets. -/
def stripComment : Bool → List Char → List Char
  | _, [] => []
  | inside, c :: cs =>
    if c = ';' && !inside then []
    else c :: stripComment (if c = '[' then true else if c = ']' then false else inside) cs

/-- The pieces of a text between the characters `sep` accepts; pieces may be empty. -/
def pieces (sep : Char → Bool) : List Char → List (List Char)
  | [] => [[]]
  | c :: cs =>
    if sep c then [] :: pieces sep cs
    else
      match pieces sep cs with
      | [] => [[c]]
      | w :: ws => (c :: w) :: ws

/-- A blank of the line. -/
def isBlank (c : Char) : Bool := c = ' ' || c = '\t' || c = '\r'

/-- The words of a text: its non-empty pieces between blanks. -/
def wordsOf (cs : List Char) : List (List Char) :=
  (pieces isBlank cs).filter fun w => !w.isEmpty

/-- A decimal digit's value. -/
def decDigit? (c : Char) : Option Nat :=
  if '0' ≤ c && c ≤ '9' then some (c.toNat - '0'.toNat) else none

/-- A hex digit's value. -/
def hexDigit? (c : Char) : Option Nat :=
  if 'a' ≤ c && c ≤ 'f' then some (c.toNat - 'a'.toNat + 10)
  else if 'A' ≤ c && c ≤ 'F' then some (c.toNat - 'A'.toNat + 10)
  else decDigit? c

/-- The number of a list of decimal digits, read on from `acc`. -/
def digits? (acc : Nat) : List Char → Option Nat
  | [] => some acc
  | c :: cs =>
    match decDigit? c with
    | some d => digits? (acc * 10 + d) cs
    | none => none

/-- A non-empty list of decimal digits. -/
def natural? (cs : List Char) : Option Nat := if cs.isEmpty then none else digits? 0 cs

/-- An unsigned decimal rational: `2`, `0.02`, or a fraction `3/2`. -/
def unsigned? (cs : List Char) : Option Rat :=
  match pieces (· = '/') cs with
  | [n, d] =>
    match natural? n, natural? d with
    | some a, some b => if b = 0 then none else some ((a : Rat) / (b : Rat))
    | _, _ => none
  | _ =>
    match pieces (· = '.') cs with
    | [n] => (natural? n).map fun a => (a : Rat)
    | [n, f] =>
      match natural? n, natural? f with
      | some a, some b => some ((a : Rat) + (b : Rat) / ((10 ^ f.length : Nat) : Rat))
      | _, _ => none
    | _ => none

/-- A decimal rational, perhaps negative. -/
def rational? : List Char → Option Rat
  | '-' :: cs => (unsigned? cs).map fun q => -q
  | cs => unsigned? cs

/-- A hex byte: two hex digits, with or without `0x`. -/
def hexByte? : List Char → Option Byte
  | ['0', 'x', a, b] => hexByte2 a b
  | [a, b] => hexByte2 a b
  | _ => none
where
  /-- The byte of two hex digits. -/
  hexByte2 (a b : Char) : Option Byte :=
    match hexDigit? a, hexDigit? b with
    | some x, some y => some (BitVec.ofNat 8 (16 * x + y))
    | _, _ => none

/-- Every element read, or none. -/
def readAll {α β : Type} (f : α → Option β) : List α → Option (List β)
  | [] => some []
  | a :: as =>
    match f a, readAll f as with
    | some b, some bs => some (b :: bs)
    | _, _ => none

/-- A frame: 14 hex bytes. -/
def frame? (ws : List (List Char)) : Option Image :=
  match readAll hexByte? ws with
  | some bs => imageOf? bs
  | none => none

/-- A time: `@` and a rational. -/
def time? : List Char → Option Rat
  | '@' :: cs => rational? cs
  | _ => none

/-- What follows `key=` in a word. -/
def valueOf? (key : List Char) (w : List Char) : Option (List Char) :=
  if w.take (key.length + 1) = key ++ ['='] then some (w.drop (key.length + 1)) else none

/-- Four values separated by commas, for A, B, C and N. -/
def four? {α : Type} (f : List Char → Option α) (cs : List Char) : Option (Paths α) :=
  match readAll f (pieces (· = ',') cs) with
  | some [a, b, c, n] => some ⟨a, b, c, n⟩
  | _ => none

/-- A mute: 0 or 1. -/
def mute? : List Char → Option Bool
  | ['0'] => some false
  | ['1'] => some true
  | _ => none

/-- The frames of a LOAD, between its brackets: none, or frames separated by `;`. -/
def frames? (cs : List Char) : Option (List Image) :=
  if (wordsOf cs).isEmpty then some []
  else readAll frame? ((pieces (· = ';') cs).map wordsOf)

/-- The operand of LOAD, from its words before a bracket and the text inside it. -/
def loadResult? (ws : List (List Char)) (inside : Option (List Char)) : Option LoadResult :=
  match ws, inside with
  | [w], none =>
    match valueOf? "fail".toList w with
    | some k =>
      if k = "Malformed".toList then some (.fail .Malformed)
      else if k = "UnsupportedVariant".toList then some (.fail .UnsupportedVariant)
      else none
    | none => none
  | [w, g], some fs =>
    match (valueOf? "rate".toList w).bind rational?, valueOf? "frames".toList g, frames? fs with
    | some r, some [], some l => some (.ok ⟨l, r⟩)
    | _, _, _ => none
  | _, _ => none

/-- The text before the line's one `[`, and what stands between it and the line's one `]`,
which ends the line.  Any other brackets are left in the text, where no command's words hold
one, so that the line is read as no command (notes/assumptions/15.md). -/
def splitBracket (cs : List Char) : List Char × Option (List Char) :=
  match pieces (· = '[') cs with
  | [a, rest] =>
    match pieces (· = ']') rest with
    | [b, c] => if (wordsOf c).isEmpty then (a, some b) else (cs, none)
    | _ => (cs, none)
  | _ => (cs, none)

/-- The command of a line without brackets that is no LOAD, from its first word and the rest.
`SILENCE` and `USERDEFAULT` stand for the one command each expands to (R104). -/
def plainCommand? (op : List Char) (ws : List (List Char)) : Option Instr :=
  if op = "FRAME".toList then
    match ws with
    | t :: bs =>
      match time? t, frame? bs with
      | some now, some F => some (.frame F.toList now)
      | _, _ => none
    | [] => none
  else if op = "USERCTL".toList then
    match ws with
    | [m, v] =>
      match (valueOf? "mute".toList m).bind (four? mute?),
          (valueOf? "vol".toList v).bind (four? rational?) with
      | some mute, some vol => some (.userctl mute vol)
      | _, _ => none
    | _ => none
  else
    match ws with
    | [] =>
      if op = "RESET".toList then some .reset
      else if op = "STOP".toList then some .stop
      else if op = "USERDEFAULT".toList then some .userdefault
      else none
    | [t] =>
      match time? t with
      | some now =>
        if op = "PLAY".toList then some (.play now)
        else if op = "WAKE".toList then some (.wake now)
        else if op = "SILENCE".toList then some (.silence now)
        else none
      | none => none
    | _ => none

/-- Read one line of command text (R103): the command it spells, and none for every line
outside the forms of R103 and R104, a bracket on a line that is no LOAD among them
(DESIGN CHOICE: the spec does not say how such a line is read, notes/assumptions/15.md). -/
def readCommand (line : List Char) : Option Instr :=
  let (outer, inside) := splitBracket (stripComment false line)
  match wordsOf outer with
  | [] => none
  | op :: ws =>
    if op = "LOAD".toList then (loadResult? ws inside).map .load
    else
      match inside with
      | some _ => none
      | none => plainCommand? op ws

end Sys2Proof.Machine
end

