-- ==== Sys2Proof/Machine/OutputTap.lean ====
section
/-!
DEFINITION. The audible output as a function of time and the output history, and the
read-only tap (spec/42_voice_bank.md R165 to R176).  Nothing here changes the state (R75).
-/

namespace Sys2Proof.Machine

/-- `OUT(t)`: the registers of the last history entry not later than `t`, or the power-on
output values where there is none (R165). -/
def OUT_at (p : Params) (hist : List HistEntry) (t : Rat) : VoiceRegs :=
  match (hist.filter fun e => decide (e.t ≤ t)).getLast? with
  | some e => e.o
  | none => VoiceRegs.silent p

/-- `a_X(t)` for a tone voice (R166). -/
def amplitude (p : Params) (hist : List HistEntry) (X : Voice) (t : Rat) : Rat :=
  if (OUT_at p hist t).on.get X then (OUT_at p hist t).gain.get X else 0

/-- `a_N(t)` (R166). -/
def noiseAmplitude (p : Params) (hist : List HistEntry) (t : Rat) : Rat :=
  if (OUT_at p hist t).non then (OUT_at p hist t).ngain else 0

/-- How long `t` has run past `a`, and not past `b`: the length of [a, b) before `t`. -/
def spanBefore (a b t : Rat) : Rat := max 0 (min b t - a)

/-- The integral of `OUT(u).freq[X]` from the first history entry to `t`: a finite sum of
frequency times duration (R167). -/
def cyclesTo (X : Voice) (t : Rat) : List HistEntry → Rat
  | [] => 0
  | [e] => e.o.freq.get X * max 0 (t - e.t)
  | e :: e' :: es => e.o.freq.get X * spanBefore e.t e'.t t + cyclesTo X t (e' :: es)

/-- `phi_X(t)` (R167): the phase of voice X's oscillator, from the session's start `t_s`, the
time of the first FRAME, on.  Before `t_s` the spec gives it no value. -/
def phi (S : Block) (X : Voice) (t : Rat) : Option Rat :=
  match S.HIST with
  | [] => none
  | e :: es => if e.t ≤ t then some (frac (S.OSC.get X + cyclesTo X t (e :: es))) else none

/-- `x_X(t)` (R168).  Before the session's start there is no phase, and the amplitude is 0
(R173). -/
def toneSignal (w : Signals) (p : Params) (S : Block) (X : Voice) (t : Rat) : Rat :=
  match phi S X t with
  | some ph => amplitude p S.HIST X t * w.TONE_WAVE ph
  | none => 0

/-- The filtered noise: `NOISE_BANDPASS`, its centre following `OUT(·).nfreq`, applied to
`NOISE_SIGNAL` (R169). -/
def filteredNoise (w : Signals) (p : Params) (S : Block) (t : Rat) : Rat :=
  w.NOISE_BANDPASS (fun u => (OUT_at p S.HIST u).nfreq) w.NOISE_SIGNAL t

/-- `x_N(t)` (R169). -/
def noiseSignal (w : Signals) (p : Params) (S : Block) (t : Rat) : Rat :=
  noiseAmplitude p S.HIST t * filteredNoise w p S t

/-- `y(t)`: the final mix, an unweighted sum (R170). -/
def mix (w : Signals) (p : Params) (S : Block) (t : Rat) : Rat :=
  toneSignal w p S .A t + toneSignal w p S .B t + toneSignal w p S .C t + noiseSignal w p S t

/-- What the tap shows at one instant: the audio-clock time and the mix (R175). -/
structure Tap where
  clock : Rat
  y : Rat
  deriving DecidableEq, Repr

/-- The output tap of the machine at audio-clock time `t` (R175), its waveform, filter and
noise OPEN. -/
def State.tap (s : State) (t : Rat) : Tap := ⟨t, mix Config.signals s.params s.S t⟩

end Sys2Proof.Machine
end

