-- ==== Sys2Proof/Safety.lean ====
section
/-!
DEFINITION. What counts as a safe run, in the terms the claims use: the invariants of
spec/10_state.md R54 and the relations between the fields that the rules rely on, the
well-formed end of a run (spec/60_exceptions.md R232), and the host's audio clock
(spec/45_host_sequencer.md R193, R202) with the runs of a host that keeps to it.
-/

namespace Sys2Proof.Machine

/-- The ranges R54 gives the target and the output registers. -/
structure VoiceRegs.InRange (r : VoiceRegs) : Prop where
  freq : ∀ X, 0 < r.freq.get X
  gain : ∀ X, 0 ≤ r.gain.get X ∧ r.gain.get X ≤ 1
  nfreq : 0 < r.nfreq
  ngain : 0 ≤ r.ngain ∧ r.ngain ≤ 1

/-- A path that is off has gain 0 (R116, and R119 for the noise path). -/
structure VoiceRegs.OffIsSilent (r : VoiceRegs) : Prop where
  tone : ∀ X, r.on.get X = false → r.gain.get X = 0
  noise : r.non = false → r.ngain = 0

/-- The ranges R34 to R36 give the envelope state. -/
structure Envelope.InRange (E : Envelope) : Prop where
  period : 0 < E.period
  phase : 0 ≤ E.phase ∧ E.phase < 1
  level : 0 ≤ E.level ∧ E.level ≤ 1

/-- The apply times of a history never decrease (R165). -/
abbrev histSorted (hist : List HistEntry) : Prop := (hist.map (·.t)).Pairwise (· ≤ ·)

/-- What every command keeps of the block. -/
structure Block.Inv (p : Params) (S : Block) : Prop where
  /-- R31, R54. -/
  uvol : ∀ V, 0 ≤ S.UVOL.get V ∧ S.UVOL.get V ≤ p.USER_VOL_MAX
  /-- R54. -/
  env : S.ENV.InRange
  /-- R54. -/
  tgt : S.TGT.InRange
  /-- R116. -/
  tgtOff : S.TGT.OffIsSilent
  /-- R54. -/
  out : S.OUT.toVoiceRegs.InRange
  /-- R116, as applied. -/
  outOff : S.OUT.toVoiceRegs.OffIsSilent
  /-- R54, for every output the history keeps. -/
  hist : ∀ e ∈ S.HIST, e.o.InRange ∧ e.o.OffIsSilent
  /-- R160, R165. -/
  sorted : histSorted S.HIST
  /-- `S.OUT.time` is the time of the last history entry (R49, R159). -/
  time : S.OUT.time = S.HIST.getLast?.map (·.t)
  /-- `S.OUT` holds what the voice bank last applied (R48), its power-on values before. -/
  last : S.OUT.toVoiceRegs = (S.HIST.getLast?.map (·.o)).getD (VoiceRegs.silent p)
  /-- An armed envelope was last updated at the last apply (R135). -/
  armed : S.ENV.shape ≠ none → S.OUT.time = some S.ENV.lastTime
  /-- The oscillator start phases are in [0, 1) (R51, R167). -/
  osc : ∀ X, 0 ≤ S.OSC.get X ∧ S.OSC.get X < 1

/-- What every command keeps of the host sequencer (R76, R206): a Track has a rate > 0, and
while Playing there is a Track with a frame left to send. -/
structure Sequencer.Inv (H : Sequencer) : Prop where
  rate : ∀ track, H.TRACK = some track → 0 < track.rate
  playing : H.PLAYING = true → ∃ track, H.TRACK = some track ∧ H.IDX < track.frames.length

/-- The invariant of the machine between commands. -/
structure Inv (s : State) : Prop where
  params : s.params.Valid
  block : s.S.Inv s.params
  host : s.H.Inv

/-- A run is well-formed only if `S.REFUSED` is false at its end (R232). -/
abbrev wellFormedRunEnd (s : State) : Prop := s.S.REFUSED = false

/-- `now` is not earlier than the last apply (R160). -/
abbrev timeOk (S : Block) (now : Rat) : Prop := ∀ t0, S.OUT.time = some t0 → t0 ≤ now

/-- The bits of each register that the decoder reads (R80, R91). -/
def usedBits : Vector Byte 14 :=
  #v[0xFF, 0x0F, 0xFF, 0x0F, 0xFF, 0x0F, 0x1F, 0x3F, 0x1F, 0x1F, 0x1F, 0xFF, 0xFF, 0x0F]

/-- An opcode byte that spells no command (R94, R102). -/
abbrev isReserved (op : Byte) : Prop :=
  op.toNat = 0x00 ∨ (0x04 ≤ op.toNat ∧ op.toNat ≤ 0x0F) ∨ 0x14 ≤ op.toNat

/-- The state after a command refused for `r`: the block as it was but for `S.REFUSED`, the
host sequencer and the parameters as they were, and `r` reported (R215; that a refusal ends in
a next state and what is reported, notes/assumptions/1.md).  What is then pending is for the
statement to say: a step has taken the refused packet, `exec` has taken none. -/
structure RefusedWith (s t : State) (r : RefusalReason) : Prop where
  block : t.S = { s.S with REFUSED := true }
  host : t.H = s.H
  params : t.params = s.params
  reports : t.port.reports = s.port.reports ++ [.refused r]

/-- Everything but the block's envelope, targets, outputs and history is as it was: the frame
of FRAME (R105, R124). -/
structure SameButFrameWrites (s t : State) : Prop where
  mute : t.S.MUTE = s.S.MUTE
  uvol : t.S.UVOL = s.S.UVOL
  osc : t.S.OSC = s.S.OSC
  refused : t.S.REFUSED = s.S.REFUSED
  host : t.H = s.H
  params : t.params = s.params
  port : t.port = s.port

/-- The audio clock: a non-decreasing rational function of real time, in seconds (R193, D33).
Which function it is, is free. -/
structure AudioClock where
  reading : Rat → Rat
  mono : ∀ a b, a ≤ b → reading a ≤ reading b

/-- The audio-clock time a command carries: FRAME's, PLAY's and WAKE's (R19). -/
def nowOf : Instr → Option Rat
  | .frame _ now => some now
  | .userctl _ _ => none
  | .reset => none
  | .load _ => none
  | .play now => some now
  | .stop => none
  | .wake now => some now

/-- A command and the real time at which it is issued. -/
structure Call where
  time : Rat
  command : Instr

/-- The calls of one session, in issue order: real time does not go backwards, and every
`now`, PLAY's and FRAME's as well as WAKE's, is the one clock's reading at that call (R193,
R19). -/
structure OnClock (clock : AudioClock) (calls : List Call) : Prop where
  ordered : (calls.map (·.time)).Pairwise (· ≤ ·)
  reads : ∀ c ∈ calls, ∀ now, nowOf c.command = some now → now = clock.reading c.time

/-- The commands of a list of calls executed one after another; none where one does not
answer a next state. -/
def runCalls : List Call → State → Option State
  | [], s => some s
  | c :: cs, s =>
    match exec c.command s with
    | .next t => runCalls cs t
    | .fault _ => none
    | .refused _ => none

/-- The host's wake-up times: audio-clock readings that never go backwards (R193) and, by
fairness, grow without bound (R202). -/
structure FairWakes (times : Nat → Rat) : Prop where
  mono : ∀ i j, i ≤ j → times i ≤ times j
  unbounded : ∀ t, ∃ j, t < times j

/-- The first `k` WAKEs at `times`, one after another with no other command between; none
where one does not answer a next state. -/
def wakes (times : Nat → Rat) : Nat → State → Option State
  | 0, s => some s
  | k + 1, s =>
    match wakes times k s with
    | some t =>
      match exec (.wake (times k)) t with
      | .next u => some u
      | .fault _ => none
      | .refused _ => none
    | none => none

/-- Some number of WAKEs at `times`, and no other command, ends the playback of `track` (R205):
up to then every state is Playing; the history has grown by the number of frames, and the
block is as RESET leaves it after exactly the FRAMEs of the track's frames in order, at times
that do not decrease. -/
def Completes (times : Nat → Rat) (track : Track) (s : State) : Prop :=
  ∃ n t nows, wakes times n s = some t ∧ t.H.PLAYING = false ∧
    t.H.IDX = track.frames.length ∧ nows.length = track.frames.length ∧
    nows.Pairwise (· ≤ ·) ∧
    (∀ m < n, ∃ u, wakes times m s = some u ∧ u.H.PLAYING = true) ∧
    t.S.HIST.length = s.S.HIST.length + track.frames.length ∧
    t.S = ((track.frames.zip nows).foldl (fun S e => frameEffect s.params e.1 e.2 S)
      s.S).restoreDefaults s.params

end Sys2Proof.Machine
end

