-- ==== Sys2Proof/Certificates/Slice0/Obligations.lean ====
section
/-!
DEFINITION. The statements about the machine, for the provers.

A rule that spec/ marks as its own decision (D<n>) or derivation is named in the docstring of
the statement that rests on it.
-/

open Sys2Proof Sys2Proof.Machine

/-! ## Packets and the step -/

/-- Decoding the packet of any command the encoding carries gives the command back, whatever
bytes follow it (spec/30_encoding.md R93 to R100; the packet format is the spec's choice,
D28; that the operands are lines beside the bytes and that bytes may follow are the model's,
notes/assumptions/6.md and 10.md). -/
def Obligations.DecodeOfEncodeGivesTheCommandBack : Prop :=
  ∀ (i : Instr) (more : List Byte), i.wellFormed = true →
    decode ((encode i).append more) = .ok (i, more)

/-- The opcode map of R94 and R102 (D28, D29), for every packet: what is refused, what every
opcode byte that is not reserved decodes to, and that the bytes left are the payload without
the command's own bytes.  That a short FRAME is no decode error, so that PayloadShort is a
USERCTL with no payload, is notes/assumptions/11.md (DEDUCED from R101, K9 and D40). -/
def Obligations.EveryOpcodeByteIsACommandOrReserved : Prop :=
  ∀ (op : Byte) (payload : List Byte) (o : TypedOperands),
    (decode ⟨op, payload, o⟩ = .error .ReservedOpcode ↔ isReserved op) ∧
    (decode ⟨op, payload, o⟩ = .error .PayloadShort ↔ op = 0x02 ∧ payload = []) ∧
    (∀ i more, decode ⟨op, payload, o⟩ = .ok (i, more) →
      op = i.opcode.byte ∧ more = payload.drop i.opcode.payloadLength)

/-- Seven packets written out from R94 to R100 decode to the commands they stand for
(spec/95_test_vectors.md K1 to K6; the packet format is the spec's choice, D28; the operand
lines not called for are notes/assumptions/6.md). -/
def Obligations.WrittenOutPacketsDecode : Prop :=
  decode ⟨0x01, [0x1C, 0x01, 0, 0, 0, 0, 0, 0x3E, 0x0F, 0, 0, 0, 0, 0], TypedOperands.zero⟩ =
      .ok (.frame [0x1C, 0x01, 0, 0, 0, 0, 0, 0x3E, 0x0F, 0, 0, 0, 0, 0] 0, []) ∧
  decode ⟨0x02, [0xF4], { TypedOperands.zero with vol := ⟨1, 1, 1, 1⟩ }⟩ =
      .ok (.userctl ⟨false, false, true, false⟩ ⟨1, 1, 1, 1⟩, []) ∧
  decode ⟨0x03, [], TypedOperands.zero⟩ = .ok (.reset, []) ∧
  decode ⟨0x10, [], { TypedOperands.zero with result := .fail .Malformed }⟩ =
      .ok (.load (.fail .Malformed), []) ∧
  decode ⟨0x11, [], { TypedOperands.zero with now := 5 }⟩ = .ok (.play 5, []) ∧
  decode ⟨0x12, [], TypedOperands.zero⟩ = .ok (.stop, []) ∧
  decode ⟨0x13, [], { TypedOperands.zero with now := 7 }⟩ = .ok (.wake 7, [])

/-- A step takes the first pending packet, decodes it and runs its command, at the state in
which the packet has been taken and any bytes behind it stand first in the stream.  The port
is the model's own (notes/assumptions/7.md), and so is that those bytes are the next packet,
with the same operand lines (notes/assumptions/10.md, DESIGN CHOICE). -/
def Obligations.StepRunsTheDecodedCommand : Prop :=
  ∀ (s : State) (p : Packet) (ps : List Packet) (i : Instr) (more : List Byte),
    s.port.pending = p :: ps → decode p = .ok (i, more) →
    step s = exec i (s.withPending (leftoverPackets p.operands more ++ ps))

/-- With no command pending the machine waits and nothing changes ("waits for the next command
and starts nothing by itself", the spec's choice, D35; that this is a step is
notes/assumptions/12.md). -/
def Obligations.StepWaitsForACommand : Prop :=
  ∀ s : State, s.port.pending = [] → step s = .next s

/-- A packet that spells no command is refused with no partial effect: ReservedOpcode where
its opcode byte is reserved, FrameLength where it ends inside its payload, FRAME or USERCTL
(the spec's choices, D29 and D40).  The model's are: that a packet's end is the end of its
stream, whatever packets follow, and the reason of a short USERCTL (notes/assumptions/11.md,
DEDUCED); what is left pending (notes/assumptions/10.md); the next state and the report
(notes/assumptions/1.md and 7.md). -/
def Obligations.PacketsThatSpellNoCommandAreRefused : Prop :=
  ∀ (s : State) (p : Packet) (ps : List Packet), s.port.pending = p :: ps →
    (isReserved p.opcode → ∃ t, step s = .next t ∧ RefusedWith s t .ReservedOpcode ∧
      t.port.pending = leftoverPackets p.operands p.payload ++ ps) ∧
    (p.opcode = 0x01 ∧ p.payload.length < 14 ∨ p.opcode = 0x02 ∧ p.payload = [] →
      ∃ t, step s = .next t ∧ RefusedWith s t .FrameLength ∧ t.port.pending = ps)

/-! ## The register image -/

/-- The noise period and the volume bytes, as R84 and R86 assemble them, where every register
stands at its index of R80; ToneMixerAndEnvelopeFieldsAreAssembled says the same under every
other index map. -/
def Obligations.NoiseAndVolumeFieldsAreAssembled : Prop :=
  ∀ (p : Params) (F : Image), p.REG_INDEX = Config.defaultRegIndex →
    (fieldsOf p F).np.toNat = F[6].toNat % 32 ∧ F[6].toNat % 32 ≤ 31 ∧
    (fieldsOf p F).vol.A.toNat = F[8].toNat % 16 ∧
    (fieldsOf p F).vol.B.toNat = F[9].toNat % 16 ∧
    (fieldsOf p F).vol.C.toNat = F[10].toNat % 16 ∧
    ((fieldsOf p F).envSel.A = true ↔ F[8].toNat / 16 % 2 = 1) ∧
    ((fieldsOf p F).envSel.B = true ↔ F[9].toNat / 16 % 2 = 1) ∧
    ((fieldsOf p F).envSel.C = true ↔ F[10].toNat / 16 % 2 = 1)

/-- Every field, under every index map: `R r` is the byte of register `r` of R80, read at the
image index that `REG_INDEX` gives it (R79, the spec's choice D43); under the map of R80 that
is index `r`.  The tone periods, mixer bits, envelope period and shape are as R83, R85, R88 and
R89 assemble them (the spec's choices D3, D5, D7, D15), the noise period and volumes as R84 and
R86 do. -/
def Obligations.ToneMixerAndEnvelopeFieldsAreAssembled : Prop :=
  ∀ (p : Params) (F : Image),
    let R : Fin 14 → Nat := fun r => (F[p.REG_INDEX[r]]).toNat
    (p.REG_INDEX = Config.defaultRegIndex → ∀ r : Fin 14, R r = (F[r]).toNat) ∧
    (fieldsOf p F).tp.A.toNat = R 0 + 256 * (R 1 % 16) ∧
    (fieldsOf p F).tp.B.toNat = R 2 + 256 * (R 3 % 16) ∧
    (fieldsOf p F).tp.C.toNat = R 4 + 256 * (R 5 % 16) ∧
    (fieldsOf p F).np.toNat = R 6 % 32 ∧
    ((fieldsOf p F).toneOff.A = true ↔ R 7 % 2 = 1) ∧
    ((fieldsOf p F).toneOff.B = true ↔ R 7 / 2 % 2 = 1) ∧
    ((fieldsOf p F).toneOff.C = true ↔ R 7 / 4 % 2 = 1) ∧
    ((fieldsOf p F).noiseOff.A = true ↔ R 7 / 8 % 2 = 1) ∧
    ((fieldsOf p F).noiseOff.B = true ↔ R 7 / 16 % 2 = 1) ∧
    ((fieldsOf p F).noiseOff.C = true ↔ R 7 / 32 % 2 = 1) ∧
    (fieldsOf p F).vol.A.toNat = R 8 % 16 ∧
    (fieldsOf p F).vol.B.toNat = R 9 % 16 ∧
    (fieldsOf p F).vol.C.toNat = R 10 % 16 ∧
    ((fieldsOf p F).envSel.A = true ↔ R 8 / 16 % 2 = 1) ∧
    ((fieldsOf p F).envSel.B = true ↔ R 9 / 16 % 2 = 1) ∧
    ((fieldsOf p F).envSel.C = true ↔ R 10 / 16 % 2 = 1) ∧
    (fieldsOf p F).ep.toNat = R 11 + 256 * R 12 ∧
    (fieldsOf p F).shape.toNat = R 13 % 16 ∧
    (shapeContinue (fieldsOf p F).shape = true ↔ R 13 / 8 % 2 = 1) ∧
    (shapeAttack (fieldsOf p F).shape = true ↔ R 13 / 4 % 2 = 1) ∧
    (shapeAlternate (fieldsOf p F).shape = true ↔ R 13 / 2 % 2 = 1) ∧
    (shapeHold (fieldsOf p F).shape = true ↔ R 13 % 2 = 1)

/-- Two images that differ only in the bits R91 lists are the same FRAME (the spec's choice,
D16), under every index map (R79, D43): the bits are those of the registers of R80. -/
def Obligations.UnusedImageBitsChangeNothing : Prop :=
  ∀ (s : State) (F F' : Image) (now : Rat),
    (∀ r : Fin 14, F[s.params.REG_INDEX[r]] &&& usedBits[r] =
      F'[s.params.REG_INDEX[r]] &&& usedBits[r]) →
    exec (.frame F.toList now) s = exec (.frame F'.toList now) s

/-! ## FRAME -/

/-- R122: decoding is total.  Every 14-byte image, at a `now` not earlier than the last apply,
gives a completed FRAME, from every state of the invariant: not refused, with every gain in
[0, 1] and every frequency > 0. -/
def Obligations.FrameIsTotal : Prop :=
  ∀ (s : State) (F : List Byte) (now : Rat), Inv s → F.length = 14 → timeOk s.S now →
    ∃ t, exec (.frame F now) s = .next t ∧ t.S.REFUSED = s.S.REFUSED ∧
      t.S.TGT.InRange ∧ t.S.OUT.toVoiceRegs.InRange ∧ t.S.OUT.time = some now ∧
      t.S.HIST.length = s.S.HIST.length + 1

/-- The tone targets of a FRAME: the frequency (R107), and the level, pass factor, gain and
on/off (R112 to R115), with the level of this frame's own envelope update, which runs whatever
the mixer says.  Under `USER_VOL_MAX` = 1 the gain's clamp changes nothing. -/
def Obligations.FrameWritesTheToneTargets : Prop :=
  ∀ (s : State) (F : Image) (now : Rat), timeOk s.S now →
    ∃ t, exec (.frame F.toList now) s = .next t ∧
      ∀ X : Voice,
        let f := fieldsOf s.params F
        let lvl : Rat :=
          if f.envSel.get X = true then t.S.ENV.level else ((f.vol.get X).toNat : Rat) / 15
        let pass : Rat := if s.S.MUTE.get X.path = false ∧ f.toneOff.get X = false then 1 else 0
        t.S.TGT.freq.get X =
          (if (f.tp.get X).toNat ≠ 0 then
            s.params.CHIP_CLOCK_HZ / (16 * ((f.tp.get X).toNat : Rat))
          else s.params.TONE_FLOOR_HZ) ∧
        t.S.TGT.gain.get X = min 1 (max 0 (lvl * s.S.UVOL.get X.path * pass)) ∧
        (Inv s → s.params.USER_VOL_MAX = 1 →
          t.S.TGT.gain.get X = lvl * s.S.UVOL.get X.path * pass) ∧
        t.S.ENV.lastTime = now ∧
        (t.S.TGT.on.get X = true ↔
          f.toneOff.get X = false ∧ (f.envSel.get X = true ∨ 0 < (f.vol.get X).toNat) ∧
            s.S.MUTE.get X.path = false)

/-- R110: the noise filter's centre frequency, a fixed linear scale of the noise period, which
rises with it; at the default parameters 1000 Hz for period 0 and 7200 Hz for period 31. -/
def Obligations.FrameWritesTheNoiseFrequency : Prop :=
  (∀ (s : State) (F : Image) (now : Rat), timeOk s.S now →
    ∃ t, exec (.frame F.toList now) s = .next t ∧
      t.S.TGT.nfreq =
        s.params.NOISE_SCALE_HZ * ((fieldsOf s.params F).np.toNat : Rat) +
          s.params.NOISE_BASE_HZ) ∧
  (∀ np : BitVec 5, NOISE_FREQ Config.params np = 200 * (np.toNat : Rat) + 1000) ∧
  NOISE_FREQ Config.params 0 = 1000 ∧ NOISE_FREQ Config.params 31 = 7200

/-- The noise on/off and gain targets: on where some voice contributes and the noise path is
not muted; the gain is set by a loudest contributor (R117 to R119, the spec's choices D17 and
D18). -/
def Obligations.FrameWritesTheNoiseGate : Prop :=
  ∀ (s : State) (F : Image) (now : Rat), timeOk s.S now →
    ∃ t, exec (.frame F.toList now) s = .next t ∧
      let f := fieldsOf s.params F
      let eff : Voice → Rat := fun X =>
        (if f.envSel.get X = true then t.S.ENV.level else ((f.vol.get X).toNat : Rat) / 15) *
          s.S.UVOL.get X.path
      let K : Voice → Prop := fun X =>
        f.noiseOff.get X = false ∧ s.S.MUTE.get X.path = false ∧ 0 < eff X
      (t.S.TGT.non = true ↔ (∃ X, K X) ∧ s.S.MUTE.N = false) ∧
      (t.S.TGT.non = true →
        ∃ X, K X ∧ (∀ Y, K Y → eff Y ≤ eff X) ∧
          t.S.TGT.ngain = min 1 (max 0 (s.S.UVOL.N * eff X))) ∧
      (t.S.TGT.non = false → t.S.TGT.ngain = 0)

/-- The retrigger of a FRAME: its condition (R132, the spec's choices D6 and D12) and its
action (R133, R145; the cycle-done bit is the spec's addition, D9). -/
def Obligations.FrameRetriggersTheEnvelope : Prop :=
  ∀ (s : State) (F : Image) (now : Rat), timeOk s.S now →
    (s.S.ENV.shape = none ∨ s.S.ENV.shape ≠ some (envShape s.params F) ∨
      s.params.ENV_PERIOD_TOLERANCE <
        |ENV_PERIOD_SECONDS s.params (envPeriod s.params F) - s.S.ENV.period|) →
    ∃ t, exec (.frame F.toList now) s = .next t ∧
      t.S.ENV.shape = some (envShape s.params F) ∧
      t.S.ENV.period = ENV_PERIOD_SECONDS s.params (envPeriod s.params F) ∧
      t.S.ENV.phase = 0 ∧ t.S.ENV.level = 1 ∧ t.S.ENV.lastTime = now ∧
      t.S.ENV.cycleDone = false ∧ t.S.ENV.mode = .Resynchronizing

/-- The advance of a FRAME that does not retrigger (R134), whichever voices select the
envelope; the cycle-done bit is the spec's addition (R137, D9). -/
def Obligations.FrameAdvancesTheEnvelope : Prop :=
  ∀ (s : State) (F : Image) (now : Rat), timeOk s.S now →
    s.S.ENV.shape = some (envShape s.params F) →
    |ENV_PERIOD_SECONDS s.params (envPeriod s.params F) - s.S.ENV.period| ≤
      s.params.ENV_PERIOD_TOLERANCE →
    ∃ t, exec (.frame F.toList now) s = .next t ∧
      let acc := s.S.ENV.phase + (now - s.S.ENV.lastTime) / s.S.ENV.period
      t.S.ENV.shape = s.S.ENV.shape ∧ t.S.ENV.period = s.S.ENV.period ∧
      t.S.ENV.phase = Int.fract acc ∧
      (t.S.ENV.cycleDone = true ↔ s.S.ENV.cycleDone = true ∨ 1 ≤ acc) ∧
      t.S.ENV.level =
        min 1 (max 0 (LEVEL (envShape s.params F) t.S.ENV.phase t.S.ENV.cycleDone)) ∧
      t.S.ENV.lastTime = now ∧ t.S.ENV.mode = .Running

/-- APPLY (R159, R162): the outputs are the targets, each gain clamped, as of `now`, and one
history entry is appended; the clamp changes nothing the decoder wrote. -/
def Obligations.FrameAppliesItsTargets : Prop :=
  ∀ (s : State) (F : Image) (now : Rat), timeOk s.S now →
    ∃ t, exec (.frame F.toList now) s = .next t ∧
      t.S.OUT.freq = t.S.TGT.freq ∧ t.S.OUT.on = t.S.TGT.on ∧
      (∀ X, t.S.OUT.gain.get X = min 1 (max 0 (t.S.TGT.gain.get X))) ∧
      t.S.OUT.nfreq = t.S.TGT.nfreq ∧ t.S.OUT.non = t.S.TGT.non ∧
      t.S.OUT.ngain = min 1 (max 0 t.S.TGT.ngain) ∧
      t.S.OUT.time = some now ∧
      t.S.HIST = s.S.HIST ++ [⟨now, t.S.OUT.toVoiceRegs⟩] ∧
      t.S.OUT.toVoiceRegs = t.S.TGT

/-- R124: FRAME has no effect on Track or Scheduler; and it leaves the user controls, the
oscillators, the refusal mark, the parameters and the port. -/
def Obligations.FrameLeavesTheRest : Prop :=
  ∀ (s : State) (F : Image) (now : Rat), timeOk s.S now →
    ∃ t, exec (.frame F.toList now) s = .next t ∧ SameButFrameWrites s t

/-- The two refusals of FRAME and their order: the image's length first, then the time (the
spec's choices D14, D29, D40; the next state and the report are notes/assumptions/1.md).
Nothing but `S.REFUSED` and the report changes. -/
def Obligations.FrameRefusals : Prop :=
  ∀ (s : State) (F : List Byte) (now : Rat),
    (F.length ≠ 14 →
      ∃ t, exec (.frame F now) s = .next t ∧ RefusedWith s t .FrameLength ∧
        t.port.pending = s.port.pending) ∧
    (F.length = 14 → ∀ t0, s.S.OUT.time = some t0 → now < t0 →
      ∃ t, exec (.frame F now) s = .next t ∧ RefusedWith s t .TimeReversal ∧
        t.port.pending = s.port.pending)

/-- After any FRAME that is not refused, a path whose on/off target is false has gain target
0 (R116, derived there; R119 for the noise path, D17). -/
def Obligations.PathsThatAreOffHaveGainZero : Prop :=
  ∀ (s t : State) (F : Image) (now : Rat), timeOk s.S now →
    exec (.frame F.toList now) s = .next t →
    (∀ X, t.S.TGT.on.get X = false → t.S.TGT.gain.get X = 0 ∧ t.S.OUT.gain.get X = 0) ∧
    (t.S.TGT.non = false → t.S.TGT.ngain = 0 ∧ t.S.OUT.ngain = 0)

/-- Two FRAMEs with the same image and `now`, back to back, the first not retriggering, leave
the targets and outputs of the first one alone, and one history entry more (R64, derived
there). -/
def Obligations.RepeatedFrameSettles : Prop :=
  ∀ (s t : State) (F : Image) (now : Rat), Inv s → timeOk s.S now →
    exec (.frame F.toList now) s = .next t → t.S.ENV.mode = .Running →
    ∃ u, exec (.frame F.toList now) t = .next u ∧ u.S.TGT = t.S.TGT ∧ u.S.OUT = t.S.OUT ∧
      u.S.HIST.length = t.S.HIST.length + 1

/-- The tone frequencies depend on the tone period registers alone, and no gain or on/off
target depends on them (R109, derived there), under every index map (R79, D43). -/
def Obligations.PitchAndLoudnessAreIndependent : Prop :=
  ∀ (s s' t t' : State) (F F' : Image) (now now' : Rat),
    s.params = s'.params → timeOk s.S now → timeOk s'.S now' →
    exec (.frame F.toList now) s = .next t → exec (.frame F'.toList now') s' = .next t' →
    ((∀ r : Fin 14, r.val < 6 → F[s.params.REG_INDEX[r]] = F'[s.params.REG_INDEX[r]]) →
      t.S.TGT.freq = t'.S.TGT.freq) ∧
    (s = s' → now = now' →
      (∀ r : Fin 14, 6 ≤ r.val → F[s.params.REG_INDEX[r]] = F'[s.params.REG_INDEX[r]]) →
      t.S.TGT.gain = t'.S.TGT.gain ∧ t.S.TGT.on = t'.S.TGT.on ∧
      t.S.TGT.ngain = t'.S.TGT.ngain ∧ t.S.TGT.non = t'.S.TGT.non ∧ t.S.ENV = t'.S.ENV)

/-- The pseudo-command SILENCE silences: whatever the state, after it every tone and the noise
are off with gain 0 (R104, the spec's choice D30). -/
def Obligations.SilenceCommandSilences : Prop :=
  ∀ (s : State) (now : Rat), s.params.REG_INDEX = Config.defaultRegIndex → timeOk s.S now →
    ∃ t, exec (Instr.silence now) s = .next t ∧
      (∀ X, t.S.OUT.on.get X = false ∧ t.S.OUT.gain.get X = 0) ∧
      t.S.OUT.non = false ∧ t.S.OUT.ngain = 0

/-! ## The envelope generator -/

/-- R143: the level an advance stores is the clamped law; every wave family returns a value in
[0, 1] on a wrapped phase, so the clamp changes nothing. -/
def Obligations.LevelLawNeedsNoClamp : Prop :=
  (∀ (shape : BitVec 4) (q : Rat) (cd : Bool), 0 ≤ q → q < 1 →
    0 ≤ LEVEL shape q cd ∧ LEVEL shape q cd ≤ 1 ∧
    clamp01 (LEVEL shape q cd) = LEVEL shape q cd) ∧
  ∀ (E : Envelope) (shape : BitVec 4) (now : Rat),
    let E' := envAdvance E shape now
    E'.level = clamp01 (LEVEL shape E'.phase E'.cycleDone) ∧
    E'.level = LEVEL shape E'.phase E'.cycleDone

/-- The wave family of every shape code (R138's table, the spec's choice D8). -/
def Obligations.EveryShapeHasItsWaveFamily : Prop :=
  ∀ (shape : BitVec 4) (q : Rat) (cd : Bool),
    (shape.toNat ∈ [0, 1, 8, 9] → LEVEL shape q cd = 1 - q) ∧
    (shape.toNat ∈ [2, 3, 10, 11] → LEVEL shape q cd = |1 - 2 * q|) ∧
    (shape.toNat ∈ [4, 12] → LEVEL shape q cd = q) ∧
    (shape.toNat ∈ [5, 7, 13, 15] → LEVEL shape q cd = if cd = true then 1 else q) ∧
    (shape.toNat ∈ [6, 14] → LEVEL shape q cd = 1 - |1 - 2 * q|)

/-- The Continue bit selects no family, yet a change of it alone retriggers (R144, the spec's
choice D8). -/
def Obligations.ContinueBitOnlyRetriggers : Prop :=
  ∀ (shape : BitVec 4) (q : Rat) (cd : Bool) (p : Params) (E : Envelope) (T now : Rat),
    LEVEL (shape ^^^ 8#4) q cd = LEVEL shape q cd ∧
    (E.shape = some shape →
      (ENV_UPDATE p E (shape ^^^ 8#4) T now).mode = .Resynchronizing ∧
      (ENV_UPDATE p E (shape ^^^ 8#4) T now).shape = some (shape ^^^ 8#4))

/-- R136: the phase wraps, and an advance of k + r periods moves it by r modulo 1. -/
def Obligations.PhaseWrapsByWholePeriods : Prop :=
  ∀ (E : Envelope) (shape : BitVec 4) (k : Nat) (r now : Rat), E.InRange → 0 ≤ r → r < 1 →
    now = E.lastTime + ((k : Rat) + r) * E.period →
    0 ≤ (envAdvance E shape now).phase ∧ (envAdvance E shape now).phase < 1 ∧
    (envAdvance E shape now).phase = Int.fract (E.phase + r)

/-- Phase progress: with the clock moved on and no retrigger, the phase strictly increases
unless the sum reaches 1; with the clock unmoved it stays (R150, derived there). -/
def Obligations.PhaseProgressesWithTheClock : Prop :=
  ∀ (s t : State) (F : Image) (now : Rat), Inv s → timeOk s.S now →
    exec (.frame F.toList now) s = .next t → t.S.ENV.mode = .Running →
    (s.S.OUT.time = some now → t.S.ENV.phase = s.S.ENV.phase) ∧
    (∀ t0, s.S.OUT.time = some t0 → t0 < now →
      s.S.ENV.phase + (now - t0) / s.S.ENV.period < 1 →
      s.S.ENV.phase < t.S.ENV.phase ∧
        t.S.ENV.phase = s.S.ENV.phase + (now - t0) / s.S.ENV.period)

/-- The derived envelope period (R131): `256 · max(ep, 1) / CHIP_CLOCK_HZ` where the parameter
has no value of its own at `ep` (the spec's choice, D5), and that value where it has one (the
first, notes/assumptions/5.md).  Under the default formula, the derived periods of two register
values are equal exactly where the values are, but that 0 and 1 have the same (R154, derived
there). -/
def Obligations.OnlyPeriodsZeroAndOneCoincide : Prop :=
  (∀ (p : Params) (ep : BitVec 16), (∀ e ∈ p.ENV_PERIOD_OVERRIDE, e.1 ≠ ep) →
    ENV_PERIOD_SECONDS p ep = 256 * max (ep.toNat : Rat) 1 / p.CHIP_CLOCK_HZ) ∧
  (∀ (p : Params) (ep : BitVec 16) (T : Rat) (before after : List (BitVec 16 × Rat)),
    p.ENV_PERIOD_OVERRIDE = before ++ (ep, T) :: after → (∀ e ∈ before, e.1 ≠ ep) →
    ENV_PERIOD_SECONDS p ep = T) ∧
  ∀ (p : Params) (ep ep' : BitVec 16), p.Valid → p.ENV_PERIOD_OVERRIDE = [] →
    (ENV_PERIOD_SECONDS p ep = ENV_PERIOD_SECONDS p ep' ↔
      ep = ep' ∨ ep.toNat ≤ 1 ∧ ep'.toNat ≤ 1)

/-! ## The audible output -/

/-- R161: an apply is a step.  From its `now` on, the output is the new registers; before it,
the output is what it was. -/
def Obligations.ApplyIsAStepAtItsInstant : Prop :=
  ∀ (s t : State) (F : Image) (now : Rat), Inv s → timeOk s.S now →
    exec (.frame F.toList now) s = .next t →
    (∀ u, now ≤ u → OUT_at s.params t.S.HIST u = t.S.OUT.toVoiceRegs) ∧
    (∀ u, u < now → OUT_at s.params t.S.HIST u = OUT_at s.params s.S.HIST u)

/-- At the session's first FRAME every oscillator is at its start phase `S.OSC`, and has no
phase before it (R167, the spec's choice D44; notes/assumptions/8.md).  A later FRAME never
changes the value of a phase, only its rate: up to `now` it is as it was.  From the `now` of
any FRAME on, the phase runs on at the frequency just applied (R167, the spec's choice D25;
R172, derived there). -/
def Obligations.OscillatorsRunOnAcrossAFrame : Prop :=
  ∀ (s t : State) (F : Image) (now : Rat) (X : Voice), Inv s → timeOk s.S now →
    exec (.frame F.toList now) s = .next t →
    (s.S.HIST = [] → phi t.S X now = some (s.S.OSC.get X) ∧
      ∀ u, u < now → phi t.S X u = none) ∧
    (s.S.HIST ≠ [] → ∀ u, u ≤ now → phi t.S X u = phi s.S X u) ∧
    (∃ ph, phi t.S X now = some ph ∧
      ∀ d, 0 ≤ d → phi t.S X (now + d) = some (Int.fract (ph + d * t.S.OUT.freq.get X)))

/-- Before the first apply of a session every amplitude is 0 and the mix is 0, whatever the
open waveform, filter and noise (R173, derived there; that there is no phase yet is
notes/assumptions/8.md).  What the amplitudes and the mix are after a FRAME is said by
OnlyFramesAreHeard. -/
def Obligations.SilentBeforeTheFirstApply : Prop :=
  ∀ (w : Signals) (s : State) (u : Rat), (∀ e ∈ s.S.HIST, u < e.t) →
    (∀ X, amplitude s.params s.S.HIST X u = 0) ∧ noiseAmplitude s.params s.S.HIST u = 0 ∧
    mix w s.params s.S u = 0

/-- The mix is at most 4 in size where the waveform and the filtered noise stay in [-1, 1]
(R170, the spec's choice D27). -/
def Obligations.MixIsBoundedByFour : Prop :=
  ∀ (w : Signals) (s : State) (u : Rat), Inv s → (∀ x, |w.TONE_WAVE x| ≤ 1) →
    |filteredNoise w s.params s.S u| ≤ 1 → |mix w s.params s.S u| ≤ 4

/-- No command but FRAME, alone or from a WAKE, changes what is heard at any time: USERCTL,
RESET, LOAD, PLAY and STOP leave the outputs, their history and the oscillators (R182, R185,
R174; the spec's choices D20 and D23).  And what is heard from the `now` of a FRAME on: each
amplitude is the applied gain where the path is on, else 0 (R166, D45); each tone is its
amplitude times the waveform at its phase (R168, D25); the noise is its amplitude times the
noise signal filtered about the applied centre frequencies (R169, D26); and the mix is the
unweighted sum of the four (R170, D27).  Waveform, filter and noise are any
(notes/assumptions/9.md). -/
def Obligations.OnlyFramesAreHeard : Prop :=
  (∀ (s t : State) (i : Instr), exec i s = .next t →
    i.opcode ≠ .FRAME → i.opcode ≠ .WAKE →
    t.S.OUT = s.S.OUT ∧ t.S.HIST = s.S.HIST ∧
      (∀ X u, phi t.S X u = phi s.S X u) ∧
      ∀ (w : Signals) (u : Rat), mix w t.params t.S u = mix w s.params s.S u) ∧
  ∀ (w : Signals) (s t : State) (F : Image) (now u : Rat), Inv s → timeOk s.S now →
    exec (.frame F.toList now) s = .next t → now ≤ u →
    (∀ X, amplitude t.params t.S.HIST X u =
        (if t.S.OUT.on.get X = true then t.S.OUT.gain.get X else 0) ∧
      ∃ ph, phi t.S X u = some ph ∧
        toneSignal w t.params t.S X u =
          amplitude t.params t.S.HIST X u * w.TONE_WAVE ph) ∧
    noiseAmplitude t.params t.S.HIST u =
      (if t.S.OUT.non = true then t.S.OUT.ngain else 0) ∧
    noiseSignal w t.params t.S u = noiseAmplitude t.params t.S.HIST u *
      w.NOISE_BANDPASS (fun v => (OUT_at t.params t.S.HIST v).nfreq) w.NOISE_SIGNAL u ∧
    mix w t.params t.S u =
      toneSignal w t.params t.S .A u + toneSignal w t.params t.S .B u +
        toneSignal w t.params t.S .C u + noiseSignal w t.params t.S u

/-! ## USERCTL and RESET -/

/-- R179 and R233: USERCTL writes the four mutes from mask bits 3:0 and the four volumes
clamped, and nothing else; it is never refused. -/
def Obligations.UserctlWritesTheUserControls : Prop :=
  ∀ (s : State) (M : Byte) (vol : Paths Rat),
    (encode (.userctl (muteOfMask M) vol)).opcode = 0x02 ∧
    ∃ t, exec (.userctl (muteOfMask M) vol) s = .next t ∧
      t.S.MUTE = ⟨M.getLsbD 0, M.getLsbD 1, M.getLsbD 2, M.getLsbD 3⟩ ∧
      (∀ V, t.S.UVOL.get V = min s.params.USER_VOL_MAX (max 0 (vol.get V))) ∧
      t.S.ENV = s.S.ENV ∧ t.S.TGT = s.S.TGT ∧ t.S.OUT = s.S.OUT ∧ t.S.HIST = s.S.HIST ∧
      t.S.OSC = s.S.OSC ∧ t.S.REFUSED = s.S.REFUSED ∧ t.H = s.H ∧ t.params = s.params ∧
      t.port = s.port

/-- USERCTL and RESET are idempotent (R181, R186, derived there). -/
def Obligations.ControlCommandsAreIdempotent : Prop :=
  ∀ (s t : State) (i : Instr), exec i s = .next t → i.opcode = .USERCTL ∨ i.opcode = .RESET →
    exec i t = .next t

/-- A mute acts from the next FRAME on, whatever the register image says: the muted voice's
tone is off with gain 0, in the targets and in the outputs (R182, the spec's choice D20; R128,
derived there). -/
def Obligations.MuteActsFromTheNextFrame : Prop :=
  ∀ (s t : State) (mute : Paths Bool) (vol : Paths Rat) (F : Image) (now : Rat) (X : Voice),
    exec (.userctl mute vol) s = .next t → mute.get X.path = true → timeOk s.S now →
    t.S.OUT = s.S.OUT ∧
    ∃ u, exec (.frame F.toList now) t = .next u ∧ u.S.TGT.on.get X = false ∧
      u.S.TGT.gain.get X = 0 ∧ u.S.OUT.on.get X = false ∧ u.S.OUT.gain.get X = 0

/-- RESET restores the user controls, the envelope and the targets and leaves everything else
(R184, R185, the spec's choices D21 and D23). -/
def Obligations.ResetRestoresTheDecoderSide : Prop :=
  ∀ s : State, ∃ t, exec .reset s = .next t ∧
    (∀ V, t.S.MUTE.get V = false ∧ t.S.UVOL.get V = 1) ∧
    t.S.ENV = ⟨none, ENV_PERIOD_SECONDS s.params 0, 0, 1, 0, false, .Resynchronizing⟩ ∧
    (∀ X, t.S.TGT.freq.get X = s.params.TONE_FLOOR_HZ ∧ t.S.TGT.gain.get X = 0 ∧
      t.S.TGT.on.get X = false) ∧
    t.S.TGT.nfreq = s.params.NOISE_BASE_HZ ∧ t.S.TGT.ngain = 0 ∧ t.S.TGT.non = false ∧
    t.S.OUT = s.S.OUT ∧ t.S.HIST = s.S.HIST ∧ t.S.OSC = s.S.OSC ∧
    t.S.REFUSED = s.S.REFUSED ∧ t.H = s.H ∧ t.params = s.params ∧ t.port = s.port

/-- The first FRAME after a RESET retriggers, whatever its shape and period, and a voice that
selects the envelope and passes then has gain `1 · S.UVOL` (R186, R147, derived there; R148). -/
def Obligations.FrameAfterResetRetriggers : Prop :=
  ∀ (s t : State) (F : Image) (now : Rat), exec .reset s = .next t → timeOk s.S now →
    ∃ u, exec (.frame F.toList now) t = .next u ∧ u.S.ENV.mode = .Resynchronizing ∧
      u.S.ENV.level = 1 ∧
      ∀ X, (fieldsOf s.params F).envSel.get X = true →
        (fieldsOf s.params F).toneOff.get X = false → u.S.TGT.gain.get X = 1

/-! ## The host sequencer -/

/-- R196: a failed LOAD changes no host and no block state, and is reported. -/
def Obligations.FailedLoadChangesNothing : Prop :=
  ∀ (s : State) (kind : LoadFailure),
    ∃ t, exec (.load (.fail kind)) s = .next t ∧ t.S = s.S ∧ t.H = s.H ∧
      t.params = s.params ∧ t.port.pending = s.port.pending ∧
      t.port.reports = s.port.reports ++ [.loadFailed kind]

/-- R197: a LOAD while playing stops first, with the full STOP, RESET included; and a
successful LOAD always leaves the sequencer Stopped, the new Track at frame 0 and tick time 0
(the last two the spec's choice, D32). -/
def Obligations.LoadStopsThenInstallsTheTrack : Prop :=
  ∀ (s : State) (track : Track), 0 < track.rate →
    ∃ t, exec (.load (.ok track)) s = .next t ∧
      t.H = ⟨some track, 0, 0, false⟩ ∧
      (s.H.PLAYING = true → ∃ u, exec .reset s = .next u ∧ t.S = u.S) ∧
      (s.H.PLAYING = false → t.S = s.S) ∧
      t.params = s.params ∧ t.port = s.port

/-- A LOAD of a Track whose rate is not > 0 is refused with BadRate, no partial effect (the
spec's choice, D40; the next state and the report are notes/assumptions/1.md).  Nothing but
`S.REFUSED` and the report changes. -/
def Obligations.LoadWithBadRateIsRefused : Prop :=
  ∀ (s : State) (track : Track), track.rate ≤ 0 →
    ∃ t, exec (.load (.ok track)) s = .next t ∧ RefusedWith s t .BadRate ∧
      t.port.pending = s.port.pending

/-- PLAY from Stopped with a frame to play enters Playing at frame 0, the first tick at `now`,
and issues no FRAME (R198, the spec's choice D31). -/
def Obligations.PlayStartsAtFrameZero : Prop :=
  ∀ (s : State) (now : Rat) (track : Track), s.H.PLAYING = false → s.H.TRACK = some track →
    track.frames ≠ [] →
    ∃ t, exec (.play now) s = .next t ∧ t.H = ⟨some track, 0, now, true⟩ ∧ t.S = s.S ∧
      t.params = s.params ∧ t.port = s.port

/-- STOP while Playing enters Stopped and resets the block, and leaves the Track, the frame
index and the tick time (R199, the spec's choices D22 and D23). -/
def Obligations.StopEntersStoppedAndResets : Prop :=
  ∀ s : State, s.H.PLAYING = true →
    ∃ t, exec .stop s = .next t ∧ t.H = { s.H with PLAYING := false } ∧
      (∃ u, exec .reset s = .next u ∧ t.S = u.S) ∧ t.params = s.params ∧ t.port = s.port

/-- The transport no-ops: STOP and WAKE while Stopped, PLAY while Playing, PLAY with no Track
or an empty one (R209, derived there). -/
def Obligations.TransportNoOpsChangeNothing : Prop :=
  ∀ (s : State) (now : Rat),
    (s.H.PLAYING = false → exec .stop s = .next s ∧ exec (.wake now) s = .next s) ∧
    (s.H.PLAYING = true → exec (.play now) s = .next s) ∧
    (s.H.TRACK = none → exec (.play now) s = .next s) ∧
    (∀ track, s.H.TRACK = some track → track.frames = [] → exec (.play now) s = .next s)

/-- R200: a WAKE while Stopped changes nothing.  A WAKE while Playing sends the next `k` frames in order, all at its own `now`, where
`k` is the number at which its loop's test first fails; each moves the frame index by 1 and
the tick time by 1/rate; and where the frame index reaches the end of the Track, the same WAKE
enters Stopped and issues RESET.  Where `now` is earlier than the last apply, the FRAMEs it
sends are refused and counted all the same: that is notes/assumptions/16.md (DEDUCED). -/
def Obligations.WakeSendsTheDueFrames : Prop :=
  ∀ (s : State) (now : Rat),
    (s.H.PLAYING = false → exec (.wake now) s = .next s) ∧
    ∀ track : Track, s.H.PLAYING = true → s.H.TRACK = some track →
      s.H.IDX ≤ track.frames.length →
      ∃ t k, exec (.wake now) s = .next t ∧ s.H.IDX + k ≤ track.frames.length ∧
        (∀ j < k, s.H.NEXT + (j : Rat) / track.rate < now + s.params.LEAD_WINDOW) ∧
        (s.H.IDX + k < track.frames.length →
          now + s.params.LEAD_WINDOW ≤ s.H.NEXT + (k : Rat) / track.rate) ∧
        t.H.TRACK = s.H.TRACK ∧ t.H.IDX = s.H.IDX + k ∧
        t.H.NEXT = s.H.NEXT + (k : Rat) / track.rate ∧ t.params = s.params ∧
        (let sent := ((track.frames.drop s.H.IDX).take k).foldl
            (fun u F => u.issueFrame F now) s
         t.port = sent.port ∧
         (s.H.IDX + k < track.frames.length → t.H.PLAYING = true ∧ t.S = sent.S) ∧
         (s.H.IDX + k = track.frames.length →
            t.H.PLAYING = false ∧ ∃ u, exec .reset sent = .next u ∧ t.S = u.S))

/-- The batch size of a WAKE, and its bound where the host is caught up (R204, derived
there; that refused FRAMEs count is notes/assumptions/16.md). -/
def Obligations.WakeBatchSize : Prop :=
  ∀ (s t : State) (now : Rat) (track : Track), s.H.PLAYING = true →
    s.H.TRACK = some track → s.H.IDX ≤ track.frames.length → 0 < track.rate →
    exec (.wake now) s = .next t →
    (t.H.IDX : Int) = (s.H.IDX : Int) +
      min ((track.frames.length : Int) - (s.H.IDX : Int))
        (max 0 ⌈(now + s.params.LEAD_WINDOW - s.H.NEXT) * track.rate⌉) ∧
    (0 ≤ s.params.LEAD_WINDOW → now ≤ s.H.NEXT →
      (t.H.IDX : Int) ≤ (s.H.IDX : Int) + ⌈s.params.LEAD_WINDOW * track.rate⌉)

/-- The last frames of a Track: a WAKE late enough sends them all, enters Stopped and resets
the decoder side, user controls included, and the output stays as the last frame set it (R203,
R174; the spec's choices D22 and D23). -/
def Obligations.EndOfTrackHoldsTheOutput : Prop :=
  ∀ (s : State) (now : Rat) (track : Track), Inv s → s.H.PLAYING = true →
    s.H.TRACK = some track → timeOk s.S now →
    s.H.NEXT + ((track.frames.length - 1 - s.H.IDX : Nat) : Rat) / track.rate <
      now + s.params.LEAD_WINDOW →
    ∃ t, exec (.wake now) s = .next t ∧ t.H.PLAYING = false ∧
      t.H.IDX = track.frames.length ∧
      (∀ V, t.S.MUTE.get V = false ∧ t.S.UVOL.get V = 1) ∧
      t.S.ENV = Envelope.initial s.params ∧ t.S.TGT = VoiceRegs.silent s.params ∧
      t.S.OUT.time = some now ∧
      t.S.HIST.length = s.S.HIST.length + (track.frames.length - s.H.IDX) ∧
      t.S.HIST.getLast?.map (·.o) = some t.S.OUT.toVoiceRegs

/-- The host's promises while Playing: after PLAY at `tp` the tick time is `tp + IDX / rate`
exactly, it never decreases, and the frame index never exceeds the Track (R206, derived
there; that refused FRAMEs count is notes/assumptions/16.md). -/
def Obligations.TickTimeFollowsThePlayTime : Prop :=
  ∀ (s t : State) (tp now : Rat) (track : Track), s.H.PLAYING = true →
    s.H.TRACK = some track → 0 < track.rate → s.H.IDX ≤ track.frames.length →
    s.H.NEXT = tp + (s.H.IDX : Rat) / track.rate → exec (.wake now) s = .next t →
    t.H.NEXT = tp + (t.H.IDX : Rat) / track.rate ∧ s.H.NEXT ≤ t.H.NEXT ∧
      s.H.IDX ≤ t.H.IDX ∧ t.H.IDX ≤ track.frames.length

/-- Frames are released by virtual tick time: after a WAKE at `now`, frame `i` has been sent
exactly where it had been before or its tick time less the lead window is before `now` (R207,
derived there; that a refused FRAME counts as sent is notes/assumptions/16.md). -/
def Obligations.FramesAreReleasedByTickTime : Prop :=
  ∀ (s t : State) (tp now : Rat) (track : Track) (i : Nat), s.H.PLAYING = true →
    s.H.TRACK = some track → 0 < track.rate → s.H.IDX ≤ track.frames.length →
    s.H.NEXT = tp + (s.H.IDX : Rat) / track.rate → exec (.wake now) s = .next t →
    i < track.frames.length →
    (i < t.H.IDX ↔ i < s.H.IDX ∨
      tp + (i : Rat) / track.rate - s.params.LEAD_WINDOW < now)

/-- A WAKE whose `now` is not earlier than the last apply refuses no FRAME, and leaves the
last apply not later than its `now`.  So a session whose every `now`, PLAY's, FRAME's and
WAKE's, is a reading of one audio clock that never goes backwards, and not earlier than the
last apply before it, runs to its end and never reaches TimeReversal (R193, the spec's choice
D33; notes/assumptions/19.md; the reports are notes/assumptions/7.md). -/
def Obligations.ForwardClockIsNeverRefused : Prop :=
  (∀ (s t : State) (now : Rat), timeOk s.S now → exec (.wake now) s = .next t →
    t.S.REFUSED = s.S.REFUSED ∧ t.port = s.port ∧ timeOk t.S now) ∧
  ∀ (clock : AudioClock) (calls : List Call) (s : State), OnClock clock calls → Inv s →
    (∀ c ∈ calls, timeOk s.S (clock.reading c.time)) →
    ∃ t new, runCalls calls s = some t ∧ t.port.reports = s.port.reports ++ new ∧
      Report.refused .TimeReversal ∉ new

/-- R205 (derived there): a Track of N ≥ 1 frames, played from its start by fair wake-ups and
no other command, is sent in order, each frame exactly once, and playback then enters Stopped:
from Playing at frame 0, and from the PLAY on, where its `now` and the wake-up times are
readings of one clock that never goes backwards (R193, R202, the spec's choice D33;
notes/assumptions/19.md). -/
def Obligations.PlayedTrackCompletes : Prop :=
  (∀ (s : State) (times : Nat → Rat) (track : Track), Inv s → FairWakes times →
    s.H.PLAYING = true → s.H.TRACK = some track → s.H.IDX = 0 → timeOk s.S (times 0) →
    Completes times track s) ∧
  ∀ (s : State) (tp : Rat) (times : Nat → Rat) (track : Track), Inv s → FairWakes times →
    tp ≤ times 0 → s.H.PLAYING = false → s.H.TRACK = some track → track.frames ≠ [] →
    timeOk s.S tp →
    ∃ u, exec (.play tp) s = .next u ∧ u.H.NEXT = tp ∧ Completes times track u

/-! ## The whole machine -/

/-- The power-on values of every piece of state, for any parameters and any oscillator start
phases (R237, R192; the spec's choices D21 and D31), and that the machine after reset is such
a state with the parameters of R12 at their defaults, but for the open clock.  The empty port
and the default parameters are the model's choice (notes/assumptions/20.md), and so are the
forms of the open clock and the start phases (notes/assumptions/2.md and 8.md). -/
def Obligations.PowerOnValues : Prop :=
  (∀ (p : Params) (osc : Voices Rat),
    let s := State.powerOn p osc
    (∀ V, s.S.MUTE.get V = false ∧ s.S.UVOL.get V = 1) ∧
    s.S.ENV = ⟨none, ENV_PERIOD_SECONDS p 0, 0, 1, 0, false, .Resynchronizing⟩ ∧
    (∀ X, s.S.TGT.freq.get X = p.TONE_FLOOR_HZ ∧ s.S.TGT.gain.get X = 0 ∧
      s.S.TGT.on.get X = false) ∧
    s.S.TGT.nfreq = p.NOISE_BASE_HZ ∧ s.S.TGT.ngain = 0 ∧ s.S.TGT.non = false ∧
    s.S.OUT.toVoiceRegs = s.S.TGT ∧ s.S.OUT.time = none ∧ s.S.HIST = [] ∧ s.S.OSC = osc ∧
    s.S.REFUSED = false ∧ s.H = ⟨none, 0, 0, false⟩ ∧ s.port.pending = [] ∧
    s.port.reports = []) ∧
  ∃ osc, (∀ X, 0 ≤ osc.get X ∧ osc.get X < 1) ∧
    State.reset = State.powerOn Config.params osc

/-- The invariant holds at power-on, for every valid parameter set and every start phase, and
at reset (R54, R237; that a valid set has `USER_VOL_MAX` ≥ 1 is notes/assumptions/3.md). -/
def Obligations.PowerOnMeetsTheInvariant : Prop :=
  (∀ (p : Params) (osc : Voices Rat), p.Valid → (∀ X, 0 ≤ osc.get X ∧ osc.get X < 1) →
    Inv (State.powerOn p osc)) ∧ Inv State.reset

/-- Every step keeps the invariant: the ranges of R54, silent paths that are off (R116), a
history sorted by time whose last entry is the output (R48, R165), an armed envelope updated
at the last apply (R135), and a host sequencer with a frame left to send while Playing
(R206). -/
def Obligations.EveryStepKeepsTheInvariant : Prop :=
  ∀ s t : State, Inv s → step s = .next t → Inv t

/-- From every state of the invariant a step answers a next state: the machine has no stuck
state and raises no exception (R231, derived there). -/
def Obligations.NoStepStopsTheMachine : Prop :=
  ∀ s : State, Inv s → ∃ t, step s = .next t

/-- Nothing clears the refusal mark (R58, the spec's choice D29; that the machine goes on after
a refusal is notes/assumptions/1.md). -/
def Obligations.RefusalMarkIsNeverCleared : Prop :=
  ∀ s t : State, step s = .next t → s.S.REFUSED = true → t.S.REFUSED = true

/-- Nothing removes or changes a history entry (R50, the spec's choice D27), and no step
changes a parameter (R239; that they stand in State is notes/assumptions/4.md) or an
oscillator's start phase (R51, R167, D25; that it is what State holds is
notes/assumptions/8.md). -/
def Obligations.HistoryIsOnlyAppendedTo : Prop :=
  ∀ s t : State, step s = .next t →
    (∃ l, t.S.HIST = s.S.HIST ++ l) ∧ t.params = s.params ∧ t.S.OSC = s.S.OSC

/-- Only FRAME and RESET, alone or issued by the host, write the envelope state and the
targets, and only USERCTL and RESET write the user controls (R30, R31, R40, R47, R68).  The
host issues RESET on entering Stopped (R199, R203, the spec's choice D22).  FRAME, USERCTL and
RESET leave the host sequencer (R124, R179, R184). -/
def Obligations.EachPartHasItsWriters : Prop :=
  ∀ (s t : State) (i : Instr), exec i s = .next t →
    (i.opcode ≠ .USERCTL →
      (t.S.MUTE = s.S.MUTE ∧ t.S.UVOL = s.S.UVOL) ∨
      (i.opcode = .RESET ∨ s.H.PLAYING = true ∧ t.H.PLAYING = false) ∧
        ∀ V, t.S.MUTE.get V = false ∧ t.S.UVOL.get V = 1) ∧
    (i.opcode ≠ .FRAME → i.opcode ≠ .RESET → i.opcode ≠ .WAKE →
      (t.S.ENV = s.S.ENV ∧ t.S.TGT = s.S.TGT) ∨
      s.H.PLAYING = true ∧ t.H.PLAYING = false ∧
        t.S.ENV = Envelope.initial s.params ∧ t.S.TGT = VoiceRegs.silent s.params) ∧
    (i.opcode = .FRAME ∨ i.opcode = .USERCTL ∨ i.opcode = .RESET → t.H = s.H)

/-- The register image is the only address space, and index 14 and above do not exist (R59,
the spec's choice D1). -/
def Obligations.ImageHasFourteenIndexes : Prop :=
  ∀ (F : Image) (i : Nat), (memRead F i = none ↔ 14 ≤ i) ∧
    ∀ h : i < 14, memRead F i = some F[i]

/-- Lines of command text read as the commands of R103 and R104 (the spec's choice D30; how `;`
is read, and that a line outside those forms is read as none, notes/assumptions/15.md). -/
def Obligations.CommandTextReads : Prop :=
  readCommand "USERCTL mute=0,0,1,0 vol=1,0.5,2,-3 ; mute C".toList =
      some (.userctl ⟨false, false, true, false⟩ ⟨1, 1 / 2, 2, -3⟩) ∧
  readCommand "FRAME @0.02 1C 01 00 00 00 00 00 3E 08 00 00 00 00 00".toList =
      some (.frame [0x1C, 0x01, 0, 0, 0, 0, 0, 0x3E, 0x08, 0, 0, 0, 0, 0] (1 / 50)) ∧
  readCommand "LOAD rate=50 frames=[]".toList = some (.load (.ok ⟨[], 50⟩)) ∧
  readCommand "LOAD fail=UnsupportedVariant".toList =
      some (.load (.fail .UnsupportedVariant)) ∧
  readCommand "RESET [x]".toList = none ∧
  readCommand "SILENCE @3".toList = some (.silence 3) ∧
  readCommand "USERDEFAULT".toList = some .userdefault
end

