-- ==== Sys2Proof/Laws/Arith.lean ====
section
/-! SUPPORT. The laws of the arithmetic primitives of R17. -/

namespace Sys2Proof.Machine

theorem clamp01_nonneg (x : Rat) : 0 ≤ clamp01 x := le_min zero_le_one (le_max_left _ _)

theorem clamp01_le_one (x : Rat) : clamp01 x ≤ 1 := min_le_left _ _

theorem clamp01_mem (x : Rat) : 0 ≤ clamp01 x ∧ clamp01 x ≤ 1 :=
  ⟨clamp01_nonneg x, clamp01_le_one x⟩

/-- The clamp changes nothing in [0, 1]. -/
theorem clamp01_of_mem {x : Rat} (h : 0 ≤ x ∧ x ≤ 1) : clamp01 x = x := by
  rw [clamp01, max_eq_right h.1, min_eq_right h.2]

@[simp] theorem clamp01_zero : clamp01 0 = 0 := clamp01_of_mem ⟨le_refl 0, zero_le_one⟩

@[simp] theorem clamp01_clamp01 (x : Rat) : clamp01 (clamp01 x) = clamp01 x :=
  clamp01_of_mem (clamp01_mem x)

theorem clamp_mem {x lo hi : Rat} (h : lo ≤ hi) : lo ≤ clamp x lo hi ∧ clamp x lo hi ≤ hi :=
  ⟨le_min h (le_max_left _ _), min_le_left _ _⟩

theorem clamp_clamp {x lo hi : Rat} (h : lo ≤ hi) :
    clamp (clamp x lo hi) lo hi = clamp x lo hi := by
  obtain ⟨h1, h2⟩ := clamp_mem (x := x) h
  rw [clamp, max_eq_right h1, min_eq_right h2]

theorem absRat_eq_abs (x : Rat) : absRat x = |x| := by
  unfold absRat
  split
  · exact (abs_of_neg ‹_›).symm
  · exact (abs_of_nonneg (not_lt.mp ‹_›)).symm

/-- `frac` is Mathlib's fractional part. -/
theorem frac_eq_fract (x : Rat) : frac x = Int.fract x := rfl

theorem frac_nonneg (x : Rat) : 0 ≤ frac x := Int.fract_nonneg x

theorem frac_lt_one (x : Rat) : frac x < 1 := Int.fract_lt_one x

theorem frac_of_mem {x : Rat} (h0 : 0 ≤ x) (h1 : x < 1) : frac x = x :=
  Int.fract_eq_self.mpr ⟨h0, h1⟩

theorem frac_add_nat (x : Rat) (k : Nat) : frac (x + k) = frac x := Int.fract_add_natCast x k

/-- Only the fractional part of a summand counts. -/
theorem frac_frac_add (x y : Rat) : frac (frac x + y) = frac (x + y) := by
  simp only [frac_eq_fract]
  have h : x + y = Int.fract x + y + (⌊x⌋ : Int) := by
    have := Int.floor_add_fract x
    linarith
  rw [h, Int.fract_add_intCast]

/-- `maxOf x xs` is one of the values and is at least each of them. -/
theorem maxOf_spec (x : Rat) (xs : List Rat) :
    maxOf x xs ∈ x :: xs ∧ ∀ y ∈ x :: xs, y ≤ maxOf x xs := by
  induction xs generalizing x with
  | nil => simp [maxOf]
  | cons z zs ih =>
    have hz := ih (max x z)
    have hfold : maxOf x (z :: zs) = maxOf (max x z) zs := rfl
    rw [hfold]
    refine ⟨?_, ?_⟩
    · rcases List.mem_cons.mp hz.1 with h | h
      · rw [h]
        rcases max_choice x z with h' | h' <;> simp [h']
      · simp [h]
    · intro y hy
      have hmax : max x z ≤ maxOf (max x z) zs := hz.2 _ (by simp)
      rcases List.mem_cons.mp hy with rfl | hy
      · exact le_trans (le_max_left _ _) hmax
      · rcases List.mem_cons.mp hy with rfl | hy
        · exact le_trans (le_max_right _ _) hmax
        · exact hz.2 _ (by simp [hy])

theorem imageOf?_toList (F : Image) : imageOf? F.toList = some F := by
  unfold imageOf?
  split
  · congr 1
  · rename_i h
    exact absurd (by simp) h

theorem imageOf?_eq_none {F : List Byte} (h : F.length ≠ 14) : imageOf? F = none := by
  simp [imageOf?, h]

/-- Every list of 14 bytes is an image's list of bytes. -/
theorem imageOf?_eq_some {F : List Byte} (h : F.length = 14) :
    ∃ img : Image, imageOf? F = some img ∧ img.toList = F := by
  refine ⟨Vector.mk F.toArray (by simpa using h), by simp [imageOf?, h], by simp⟩

end Sys2Proof.Machine
end

