-- ==== Sys2Proof/Laws/Envelope.lean ====
section
/-! SUPPORT. What the envelope update can do (R130 to R143), once for every caller. -/

namespace Sys2Proof

theorem Config.openClock_pos : 0 < Config.openClock := by
  unfold Config.openClock
  positivity

/-- The defaults of R12 are valid at any clock > 0. -/
theorem Config.defaults_valid {c : Rat} (h : 0 < c) : (Config.defaults c).Valid where
  clock := h
  toneFloor := by norm_num [Config.defaults]
  noiseBase := by norm_num [Config.defaults]
  noiseTop := by norm_num [Config.defaults]
  envOverride := by simp [Config.defaults]
  tolerance := le_refl 0
  userVolMax := le_refl 1
  defaultRate := by norm_num [Config.defaults]
  leadWindow := by norm_num [Config.defaults]
  pollInterval := by norm_num [Config.defaults]
  regIndex := (by decide +kernel : Config.defaultRegIndex.toList.Nodup)

end Sys2Proof

namespace Sys2Proof.Machine

theorem defaultEnvPeriod_pos {clock : Rat} (h : 0 < clock) (ep : BitVec 16) :
    0 < defaultEnvPeriod clock ep := by
  have h1 : 0 < Nat.max ep.toNat 1 := Nat.lt_of_lt_of_le Nat.one_pos (Nat.le_max_right _ _)
  have h2 : (0 : Rat) < ((Nat.max ep.toNat 1 : Nat) : Rat) := by exact_mod_cast h1
  unfold defaultEnvPeriod
  positivity

/-- A derived envelope period is > 0 (R131). -/
theorem ENV_PERIOD_SECONDS_pos {p : Params} (hp : p.Valid) (ep : BitVec 16) :
    0 < ENV_PERIOD_SECONDS p ep := by
  unfold ENV_PERIOD_SECONDS
  split
  · exact hp.envOverride _ (List.mem_of_find?_eq_some ‹_›)
  · exact defaultEnvPeriod_pos hp.clock ep

/-- Every wave family's law lies in [0, 1] on a wrapped phase (R143). -/
theorem RISE_HOLD_mem {q : Rat} (h : 0 ≤ q ∧ q < 1) (cd : Bool) :
    0 ≤ RISE_HOLD q cd ∧ RISE_HOLD q cd ≤ 1 := by
  cases cd <;> simp [RISE_HOLD, h.1, h.2.le]

theorem TRIANGLE_mem {q : Rat} (h : 0 ≤ q ∧ q < 1) (At : Bool) :
    0 ≤ TRIANGLE At q ∧ TRIANGLE At q ≤ 1 := by
  have h1 : |1 - 2 * q| ≤ 1 := by rw [abs_le]; constructor <;> linarith [h.1, h.2]
  have h0 := abs_nonneg (1 - 2 * q)
  cases At <;> simp only [TRIANGLE, absRat_eq_abs, if_true, Bool.false_eq_true, if_false] <;>
    constructor <;> linarith

/-- The retrigger test, as the three conditions of R132. -/
theorem retriggers_iff (p : Params) (E : Envelope) (shape : BitVec 4) (T : Rat) :
    retriggers p E shape T = true ↔
      E.shape ≠ some shape ∨ p.ENV_PERIOD_TOLERANCE < |T - E.period| := by
  simp [retriggers, absRat_eq_abs]

/-- The envelope update either retriggers or advances, and the latter only with the stored
shape. -/
theorem ENV_UPDATE_cases (p : Params) (E : Envelope) (shape : BitVec 4) (T now : Rat) :
    (retriggers p E shape T = true ∧ ENV_UPDATE p E shape T now = envRetrigger shape T now) ∨
    (retriggers p E shape T = false ∧ E.shape = some shape ∧
      ENV_UPDATE p E shape T now = envAdvance E shape now) := by
  unfold ENV_UPDATE
  cases h : retriggers p E shape T with
  | true => exact .inl ⟨rfl, by simp⟩
  | false =>
    refine .inr ⟨rfl, ?_, by simp⟩
    have h' := (retriggers_iff p E shape T).not.mp (by simp [h])
    by_contra hne
    exact h' (.inl hne)

theorem envAdvance_level_mem (E : Envelope) (shape : BitVec 4) (now : Rat) :
    0 ≤ (envAdvance E shape now).level ∧ (envAdvance E shape now).level ≤ 1 :=
  clamp01_mem _

/-- The update keeps the ranges of R34 to R36. -/
theorem ENV_UPDATE_inRange {p : Params} {E : Envelope} {shape : BitVec 4} {T now : Rat}
    (hT : 0 < T) (hE : E.InRange) : (ENV_UPDATE p E shape T now).InRange := by
  rcases ENV_UPDATE_cases p E shape T now with ⟨_, h⟩ | ⟨_, _, h⟩
  · rw [h]
    exact ⟨hT, ⟨le_refl 0, zero_lt_one⟩, ⟨zero_le_one, le_refl 1⟩⟩
  · rw [h]
    exact ⟨hE.period, ⟨frac_nonneg _, frac_lt_one _⟩, clamp01_mem _⟩

/-- Every update records its time (R133, R134). -/
theorem ENV_UPDATE_lastTime (p : Params) (E : Envelope) (shape : BitVec 4) (T now : Rat) :
    (ENV_UPDATE p E shape T now).lastTime = now := by
  rcases ENV_UPDATE_cases p E shape T now with ⟨_, h⟩ | ⟨_, _, h⟩ <;> rw [h] <;> rfl

/-- Every update leaves the frame's shape stored. -/
theorem ENV_UPDATE_shape (p : Params) (E : Envelope) (shape : BitVec 4) (T now : Rat) :
    (ENV_UPDATE p E shape T now).shape = some shape := by
  rcases ENV_UPDATE_cases p E shape T now with ⟨_, h⟩ | ⟨_, hs, h⟩ <;> rw [h]
  · rfl
  · exact hs

theorem Envelope.initial_inRange {p : Params} (hp : p.Valid) : (Envelope.initial p).InRange :=
  ⟨ENV_PERIOD_SECONDS_pos hp 0, ⟨le_refl 0, zero_lt_one⟩, ⟨zero_le_one, le_refl 1⟩⟩

end Sys2Proof.Machine
end

