-- ==== Sys2Proof/Laws/Decoder.lean ====
section
/-! SUPPORT. What the register decoder and APPLY make of any fields (R107 to R119, R162). -/

namespace Sys2Proof.Machine

theorem TONE_FREQ_pos {p : Params} (hp : p.Valid) (tp : BitVec 12) : 0 < TONE_FREQ p tp := by
  unfold TONE_FREQ
  split
  · rename_i h
    have h1 : 0 < tp.toNat := Nat.pos_of_ne_zero fun h0 => h (BitVec.eq_of_toNat_eq (by simpa using h0))
    have h2 : (0 : Rat) < (tp.toNat : Rat) := by exact_mod_cast h1
    exact div_pos hp.clock (by positivity)
  · exact hp.toneFloor

theorem NOISE_FREQ_pos {p : Params} (hp : p.Valid) (np : BitVec 5) : 0 < NOISE_FREQ p np := by
  have hlt : (np.toNat : Rat) ≤ 31 := by exact_mod_cast Nat.le_of_lt_succ np.isLt
  have h0 : (0 : Rat) ≤ (np.toNat : Rat) := Nat.cast_nonneg _
  unfold NOISE_FREQ
  rcases le_or_gt 0 p.NOISE_SCALE_HZ with h | h
  · have := hp.noiseBase
    positivity
  · have := mul_le_mul_of_nonpos_left hlt h.le
    linarith [hp.noiseTop]

theorem toneGain_mem (f : Fields) (l : Rat) (S : Block) (X : Voice) :
    0 ≤ toneGain f l S X ∧ toneGain f l S X ≤ 1 := clamp01_mem _

theorem noiseGain_mem (f : Fields) (l : Rat) (S : Block) :
    0 ≤ noiseGain f l S ∧ noiseGain f l S ≤ 1 := by
  unfold noiseGain
  split
  · exact ⟨le_refl 0, zero_le_one⟩
  · split
    · exact clamp01_mem _
    · exact ⟨le_refl 0, zero_le_one⟩

/-- Every FRAME's targets are in range (R127). -/
theorem targets_inRange {p : Params} (hp : p.Valid) (f : Fields) (l : Rat) (S : Block) :
    (targets p f l S).InRange where
  freq X := by simpa [targets] using TONE_FREQ_pos hp _
  gain X := by simpa [targets] using toneGain_mem f l S X
  nfreq := NOISE_FREQ_pos hp f.np
  ngain := noiseGain_mem f l S

/-- A tone that is off has gain 0. -/
theorem toneGain_of_off {f : Fields} {S : Block} {X : Voice} (l : Rat)
    (h : toneOn f S X = false) : toneGain f l S X = 0 := by
  unfold toneGain
  by_cases hp : tonePasses f S X = true
  · have hv : f.envSel.get X = false ∧ (f.vol.get X).toNat = 0 := by
      simp only [tonePasses, Bool.and_eq_true, Bool.not_eq_true'] at hp
      simpa [toneOn, hp.1, hp.2] using h
    simp [channelLevel, hv.1, hv.2]
  · simp [hp]

/-- Noise that is off has gain 0. -/
theorem noiseGain_of_off {f : Fields} {l : Rat} {S : Block} (h : noiseOn f l S = false) :
    noiseGain f l S = 0 := by
  unfold noiseGain
  split <;> simp [h]

theorem targets_offIsSilent (p : Params) (f : Fields) (l : Rat) (S : Block) :
    (targets p f l S).OffIsSilent where
  tone X h := by
    simp only [targets, Voices.get_ofFn] at h ⊢
    exact toneGain_of_off l h
  noise h := noiseGain_of_off h

theorem mem_contributors {f : Fields} {l : Rat} {S : Block} {X : Voice} :
    X ∈ contributors f l S ↔
      f.noiseOff.get X = false ∧ S.MUTE.get X.path = false ∧ 0 < effectiveLevel f l S X := by
  have hX : X ∈ Voice.all := by cases X <;> decide
  simp [contributors, contributes, hX, and_assoc]

theorem noiseOn_iff {f : Fields} {l : Rat} {S : Block} :
    noiseOn f l S = true ↔ (∃ X, X ∈ contributors f l S) ∧ S.MUTE.get .N = false := by
  unfold noiseOn
  cases h : contributors f l S <;> simp

/-- Where noise is on, its gain is set by a loudest contributor (R119). -/
theorem noiseGain_of_on {f : Fields} {l : Rat} {S : Block} (h : noiseOn f l S = true) :
    ∃ X ∈ contributors f l S,
      (∀ Y ∈ contributors f l S, effectiveLevel f l S Y ≤ effectiveLevel f l S X) ∧
      noiseGain f l S = clamp01 (S.UVOL.get .N * effectiveLevel f l S X) := by
  unfold noiseGain
  cases hc : contributors f l S with
  | nil => simp [noiseOn, hc] at h
  | cons X Xs =>
    obtain ⟨hmem, hle⟩ := maxOf_spec (effectiveLevel f l S X) (Xs.map (effectiveLevel f l S))
    rw [← List.map_cons (f := effectiveLevel f l S)] at hmem hle
    obtain ⟨Z, hZ, hZe⟩ := List.mem_map.mp hmem
    refine ⟨Z, hZ, fun Y hY => ?_, ?_⟩
    · rw [hZe]
      exact hle _ (List.mem_map_of_mem hY)
    · simp only [h, if_true, hZe]

/-- The defensive clamp of APPLY changes nothing in range (R162). -/
theorem appliedRegs_of_inRange {r : VoiceRegs} (h : r.InRange) : appliedRegs r = r := by
  have hA := clamp01_of_mem (h.gain .A)
  have hB := clamp01_of_mem (h.gain .B)
  have hC := clamp01_of_mem (h.gain .C)
  have hN := clamp01_of_mem h.ngain
  cases r
  simp only [appliedRegs, Voices.ofFn, hA, hB, hC, hN]
  rfl

theorem silent_inRange {p : Params} (hp : p.Valid) : (VoiceRegs.silent p).InRange where
  freq X := by simpa [VoiceRegs.silent] using hp.toneFloor
  gain X := by simp [VoiceRegs.silent]
  nfreq := hp.noiseBase
  ngain := by simp [VoiceRegs.silent]

theorem silent_offIsSilent (p : Params) : (VoiceRegs.silent p).OffIsSilent where
  tone X _ := by simp [VoiceRegs.silent]
  noise _ := rfl

end Sys2Proof.Machine
end

