-- ==== Sys2Proof/Laws/State.lean ====
section
/-! SUPPORT. One lemma per field per update of the state, each true by definition. -/

namespace Sys2Proof.Machine

/-! `withS` -/

@[simp] theorem State.withS_S (s : State) (B : Block) : (s.withS B).S = B := rfl
@[simp] theorem State.withS_H (s : State) (B : Block) : (s.withS B).H = s.H := rfl
@[simp] theorem State.withS_params (s : State) (B : Block) : (s.withS B).params = s.params := rfl
@[simp] theorem State.withS_port (s : State) (B : Block) : (s.withS B).port = s.port := rfl

/-! `withH` -/

@[simp] theorem State.withH_S (s : State) (H : Sequencer) : (s.withH H).S = s.S := rfl
@[simp] theorem State.withH_H (s : State) (H : Sequencer) : (s.withH H).H = H := rfl
@[simp] theorem State.withH_params (s : State) (H : Sequencer) :
    (s.withH H).params = s.params := rfl
@[simp] theorem State.withH_port (s : State) (H : Sequencer) : (s.withH H).port = s.port := rfl

/-! `withPending` -/

@[simp] theorem State.withPending_S (s : State) (ps : List Packet) :
    (s.withPending ps).S = s.S := rfl
@[simp] theorem State.withPending_H (s : State) (ps : List Packet) :
    (s.withPending ps).H = s.H := rfl
@[simp] theorem State.withPending_params (s : State) (ps : List Packet) :
    (s.withPending ps).params = s.params := rfl
@[simp] theorem State.withPending_pending (s : State) (ps : List Packet) :
    (s.withPending ps).port.pending = ps := rfl
@[simp] theorem State.withPending_reports (s : State) (ps : List Packet) :
    (s.withPending ps).port.reports = s.port.reports := rfl

/-! `report` -/

@[simp] theorem State.report_S (s : State) (r : Report) : (s.report r).S = s.S := rfl
@[simp] theorem State.report_H (s : State) (r : Report) : (s.report r).H = s.H := rfl
@[simp] theorem State.report_params (s : State) (r : Report) :
    (s.report r).params = s.params := rfl
@[simp] theorem State.report_pending (s : State) (r : Report) :
    (s.report r).port.pending = s.port.pending := rfl
@[simp] theorem State.report_reports (s : State) (r : Report) :
    (s.report r).port.reports = s.port.reports ++ [r] := rfl

/-! `refuse` -/

@[simp] theorem State.refuse_S (s : State) (r : RefusalReason) :
    (s.refuse r).S = { s.S with REFUSED := true } := rfl
@[simp] theorem State.refuse_H (s : State) (r : RefusalReason) : (s.refuse r).H = s.H := rfl
@[simp] theorem State.refuse_params (s : State) (r : RefusalReason) :
    (s.refuse r).params = s.params := rfl
@[simp] theorem State.refuse_pending (s : State) (r : RefusalReason) :
    (s.refuse r).port.pending = s.port.pending := rfl
@[simp] theorem State.refuse_reports (s : State) (r : RefusalReason) :
    (s.refuse r).port.reports = s.port.reports ++ [.refused r] := rfl

/-! `blockReset` -/

@[simp] theorem State.blockReset_S (s : State) :
    s.blockReset.S = s.S.restoreDefaults s.params := rfl
@[simp] theorem State.blockReset_H (s : State) : s.blockReset.H = s.H := rfl
@[simp] theorem State.blockReset_params (s : State) : s.blockReset.params = s.params := rfl
@[simp] theorem State.blockReset_port (s : State) : s.blockReset.port = s.port := rfl

/-! `restoreDefaults`: what RESET writes, and what it leaves -/

@[simp] theorem Block.restoreDefaults_MUTE (p : Params) (S : Block) :
    (S.restoreDefaults p).MUTE = Paths.ofFn fun _ => false := rfl
@[simp] theorem Block.restoreDefaults_UVOL (p : Params) (S : Block) :
    (S.restoreDefaults p).UVOL = Paths.ofFn fun _ => 1 := rfl
@[simp] theorem Block.restoreDefaults_ENV (p : Params) (S : Block) :
    (S.restoreDefaults p).ENV = Envelope.initial p := rfl
@[simp] theorem Block.restoreDefaults_TGT (p : Params) (S : Block) :
    (S.restoreDefaults p).TGT = VoiceRegs.silent p := rfl
@[simp] theorem Block.restoreDefaults_OUT (p : Params) (S : Block) :
    (S.restoreDefaults p).OUT = S.OUT := rfl
@[simp] theorem Block.restoreDefaults_HIST (p : Params) (S : Block) :
    (S.restoreDefaults p).HIST = S.HIST := rfl
@[simp] theorem Block.restoreDefaults_OSC (p : Params) (S : Block) :
    (S.restoreDefaults p).OSC = S.OSC := rfl
@[simp] theorem Block.restoreDefaults_REFUSED (p : Params) (S : Block) :
    (S.restoreDefaults p).REFUSED = S.REFUSED := rfl

/-! `writeUserControls` -/

@[simp] theorem Block.writeUserControls_MUTE (p : Params) (m : Paths Bool) (v : Paths Rat)
    (S : Block) : (S.writeUserControls p m v).MUTE = m := rfl
@[simp] theorem Block.writeUserControls_UVOL (p : Params) (m : Paths Bool) (v : Paths Rat)
    (S : Block) :
    (S.writeUserControls p m v).UVOL = Paths.ofFn fun V => clamp (v.get V) 0 p.USER_VOL_MAX :=
  rfl
@[simp] theorem Block.writeUserControls_ENV (p : Params) (m : Paths Bool) (v : Paths Rat)
    (S : Block) : (S.writeUserControls p m v).ENV = S.ENV := rfl
@[simp] theorem Block.writeUserControls_TGT (p : Params) (m : Paths Bool) (v : Paths Rat)
    (S : Block) : (S.writeUserControls p m v).TGT = S.TGT := rfl
@[simp] theorem Block.writeUserControls_OUT (p : Params) (m : Paths Bool) (v : Paths Rat)
    (S : Block) : (S.writeUserControls p m v).OUT = S.OUT := rfl
@[simp] theorem Block.writeUserControls_HIST (p : Params) (m : Paths Bool) (v : Paths Rat)
    (S : Block) : (S.writeUserControls p m v).HIST = S.HIST := rfl
@[simp] theorem Block.writeUserControls_OSC (p : Params) (m : Paths Bool) (v : Paths Rat)
    (S : Block) : (S.writeUserControls p m v).OSC = S.OSC := rfl
@[simp] theorem Block.writeUserControls_REFUSED (p : Params) (m : Paths Bool) (v : Paths Rat)
    (S : Block) : (S.writeUserControls p m v).REFUSED = S.REFUSED := rfl

/-! `frameEffect`: what FRAME writes, and what it leaves -/

@[simp] theorem frameEffect_MUTE (p : Params) (F : Image) (now : Rat) (S : Block) :
    (frameEffect p F now S).MUTE = S.MUTE := rfl
@[simp] theorem frameEffect_UVOL (p : Params) (F : Image) (now : Rat) (S : Block) :
    (frameEffect p F now S).UVOL = S.UVOL := rfl
@[simp] theorem frameEffect_ENV (p : Params) (F : Image) (now : Rat) (S : Block) :
    (frameEffect p F now S).ENV =
      ENV_UPDATE p S.ENV (envShape p F) (ENV_PERIOD_SECONDS p (envPeriod p F)) now := rfl
@[simp] theorem frameEffect_TGT (p : Params) (F : Image) (now : Rat) (S : Block) :
    (frameEffect p F now S).TGT =
      targets p (fieldsOf p F)
        (ENV_UPDATE p S.ENV (envShape p F) (ENV_PERIOD_SECONDS p (envPeriod p F)) now).level S :=
  rfl
@[simp] theorem frameEffect_OUT_regs (p : Params) (F : Image) (now : Rat) (S : Block) :
    (frameEffect p F now S).OUT.toVoiceRegs = appliedRegs (frameEffect p F now S).TGT := rfl
@[simp] theorem frameEffect_OUT_time (p : Params) (F : Image) (now : Rat) (S : Block) :
    (frameEffect p F now S).OUT.time = some now := rfl
@[simp] theorem frameEffect_HIST (p : Params) (F : Image) (now : Rat) (S : Block) :
    (frameEffect p F now S).HIST =
      S.HIST ++ [⟨now, appliedRegs (frameEffect p F now S).TGT⟩] := rfl
@[simp] theorem frameEffect_OSC (p : Params) (F : Image) (now : Rat) (S : Block) :
    (frameEffect p F now S).OSC = S.OSC := rfl
@[simp] theorem frameEffect_REFUSED (p : Params) (F : Image) (now : Rat) (S : Block) :
    (frameEffect p F now S).REFUSED = S.REFUSED := rfl

/-! `emitFrame` -/

@[simp] theorem State.emitFrame_S (s : State) (rate now : Rat) (F : Image) :
    (s.emitFrame rate now F).S = (s.issueFrame F now).S := rfl

end Sys2Proof.Machine
end

