-- ==== Sys2Proof/Laws/Block.lean ====
section
/-! SUPPORT. What each block operation keeps of the block's invariant, once for every caller. -/

namespace Sys2Proof.Machine

/-- The `now` test of R160, as an order on the times. -/
theorem earlierThanLastApply_eq_false {S : Block} {now : Rat} :
    earlierThanLastApply S now = false ↔ ∀ t, S.OUT.time = some t → t ≤ now := by
  unfold earlierThanLastApply
  cases S.OUT.time <;> simp

/-- `block FRAME` either is refused or has its effect. -/
theorem issueFrame_cases (s : State) (F : Image) (now : Rat) :
    (earlierThanLastApply s.S now = true ∧ s.issueFrame F now = s.refuse .TimeReversal) ∨
    (earlierThanLastApply s.S now = false ∧
      s.issueFrame F now = s.withS (frameEffect s.params F now s.S)) := by
  unfold State.issueFrame
  cases h : earlierThanLastApply s.S now <;> simp

/-- A history entry not earlier than the last keeps the history sorted. -/
theorem histSorted_append {hist : List HistEntry} {e : HistEntry} (h : histSorted hist)
    (hlast : ∀ t, hist.getLast?.map (·.t) = some t → t ≤ e.t) : histSorted (hist ++ [e]) := by
  unfold histSorted at *
  rw [List.map_append, List.pairwise_append]
  refine ⟨h, by simp, ?_⟩
  intro a ha b hb
  simp only [List.map_cons, List.map_nil, List.mem_singleton] at hb
  subst hb
  rcases List.eq_nil_or_concat hist with rfl | ⟨front, l, rfl⟩
  · simp at ha
  · have hl : l.t ≤ e.t := hlast _ (by simp)
    rw [List.concat_eq_append, List.map_append, List.pairwise_append] at h
    rw [List.concat_eq_append, List.map_append, List.mem_append] at ha
    rcases ha with ha | ha
    · exact le_trans (h.2.2 a ha l.t (by simp)) hl
    · simp only [List.map_cons, List.map_nil, List.mem_singleton] at ha
      rw [ha]
      exact hl

/-- FRAME's effect keeps the block's invariant, where time does not go backwards. -/
theorem frameEffect_inv {p : Params} {F : Image} {now : Rat} {S : Block} (hp : p.Valid)
    (hS : S.Inv p) (ht : earlierThanLastApply S now = false) :
    (frameEffect p F now S).Inv p := by
  have htgt : (frameEffect p F now S).TGT.InRange := targets_inRange hp _ _ _
  have hoff : (frameEffect p F now S).TGT.OffIsSilent := targets_offIsSilent _ _ _ _
  have happ : appliedRegs (frameEffect p F now S).TGT = (frameEffect p F now S).TGT :=
    appliedRegs_of_inRange htgt
  exact {
    uvol := hS.uvol
    env := ENV_UPDATE_inRange (ENV_PERIOD_SECONDS_pos hp _) hS.env
    tgt := htgt
    tgtOff := hoff
    out := by rw [frameEffect_OUT_regs, happ]; exact htgt
    outOff := by rw [frameEffect_OUT_regs, happ]; exact hoff
    hist := by
      intro e he
      rw [frameEffect_HIST, List.mem_append, List.mem_singleton] at he
      rcases he with he | rfl
      · exact hS.hist e he
      · rw [happ]; exact ⟨htgt, hoff⟩
    sorted := by
      rw [frameEffect_HIST]
      refine histSorted_append hS.sorted fun t h => ?_
      exact earlierThanLastApply_eq_false.mp ht t (hS.time.trans h)
    time := by rw [frameEffect_OUT_time, frameEffect_HIST]; simp
    last := by rw [frameEffect_OUT_regs, frameEffect_HIST]; simp
    armed := fun _ => by
      rw [frameEffect_OUT_time, frameEffect_ENV, ENV_UPDATE_lastTime]
    osc := hS.osc }

theorem restoreDefaults_inv {p : Params} {S : Block} (hp : p.Valid) (hS : S.Inv p) :
    (S.restoreDefaults p).Inv p where
  uvol V := by simpa using hp.userVolMax
  env := Envelope.initial_inRange hp
  tgt := silent_inRange hp
  tgtOff := silent_offIsSilent p
  out := hS.out
  outOff := hS.outOff
  hist := hS.hist
  sorted := hS.sorted
  time := hS.time
  last := hS.last
  armed h := absurd rfl h
  osc := hS.osc

theorem writeUserControls_inv {p : Params} {S : Block} (hp : p.Valid) (hS : S.Inv p)
    (mute : Paths Bool) (vol : Paths Rat) : (S.writeUserControls p mute vol).Inv p where
  uvol V := by
    simpa using clamp_mem (x := vol.get V) (le_trans zero_le_one hp.userVolMax)
  env := hS.env
  tgt := hS.tgt
  tgtOff := hS.tgtOff
  out := hS.out
  outOff := hS.outOff
  hist := hS.hist
  sorted := hS.sorted
  time := hS.time
  last := hS.last
  armed := hS.armed
  osc := hS.osc

theorem markRefused_inv {p : Params} {S : Block} (hS : S.Inv p) :
    ({ S with REFUSED := true } : Block).Inv p where
  uvol := hS.uvol
  env := hS.env
  tgt := hS.tgt
  tgtOff := hS.tgtOff
  out := hS.out
  outOff := hS.outOff
  hist := hS.hist
  sorted := hS.sorted
  time := hS.time
  last := hS.last
  armed := hS.armed
  osc := hS.osc

theorem refuse_inv {s : State} (hs : Inv s) (r : RefusalReason) : Inv (s.refuse r) :=
  ⟨hs.params, markRefused_inv hs.block, hs.host⟩

theorem issueFrame_inv {s : State} (hs : Inv s) (F : Image) (now : Rat) :
    Inv (s.issueFrame F now) := by
  rcases issueFrame_cases s F now with ⟨_, h⟩ | ⟨ht, h⟩ <;> rw [h]
  · exact refuse_inv hs _
  · exact ⟨hs.params, frameEffect_inv hs.params hs.block ht, hs.host⟩

/-! What `block FRAME` leaves, refused or not. -/

@[simp] theorem issueFrame_H (s : State) (F : Image) (now : Rat) :
    (s.issueFrame F now).H = s.H := by
  rcases issueFrame_cases s F now with ⟨_, h⟩ | ⟨_, h⟩ <;> rw [h] <;> rfl

@[simp] theorem issueFrame_params (s : State) (F : Image) (now : Rat) :
    (s.issueFrame F now).params = s.params := by
  rcases issueFrame_cases s F now with ⟨_, h⟩ | ⟨_, h⟩ <;> rw [h] <;> rfl

@[simp] theorem issueFrame_MUTE (s : State) (F : Image) (now : Rat) :
    (s.issueFrame F now).S.MUTE = s.S.MUTE := by
  rcases issueFrame_cases s F now with ⟨_, h⟩ | ⟨_, h⟩ <;> rw [h] <;> rfl

@[simp] theorem issueFrame_UVOL (s : State) (F : Image) (now : Rat) :
    (s.issueFrame F now).S.UVOL = s.S.UVOL := by
  rcases issueFrame_cases s F now with ⟨_, h⟩ | ⟨_, h⟩ <;> rw [h] <;> rfl

@[simp] theorem issueFrame_OSC (s : State) (F : Image) (now : Rat) :
    (s.issueFrame F now).S.OSC = s.S.OSC := by
  rcases issueFrame_cases s F now with ⟨_, h⟩ | ⟨_, h⟩ <;> rw [h] <;> rfl

/-- `block FRAME` appends at most one history entry. -/
theorem issueFrame_HIST (s : State) (F : Image) (now : Rat) :
    ∃ l, (s.issueFrame F now).S.HIST = s.S.HIST ++ l := by
  rcases issueFrame_cases s F now with ⟨_, h⟩ | ⟨_, h⟩ <;> rw [h]
  · exact ⟨[], by simp⟩
  · exact ⟨_, rfl⟩

/-- `block FRAME` never clears the refusal mark. -/
theorem issueFrame_REFUSED {s : State} (F : Image) (now : Rat) (h : s.S.REFUSED = true) :
    (s.issueFrame F now).S.REFUSED = true := by
  rcases issueFrame_cases s F now with ⟨_, h'⟩ | ⟨_, h'⟩ <;> rw [h']
  · rfl
  · exact h

/-- Where time does not go backwards, `block FRAME` is not refused, and the last apply is at
its `now`. -/
theorem issueFrame_ok {s : State} (F : Image) {now : Rat}
    (h : earlierThanLastApply s.S now = false) :
    s.issueFrame F now = s.withS (frameEffect s.params F now s.S) := by
  simp [State.issueFrame, h]

/-- After an apply at `now`, another FRAME at the same `now` is not refused. -/
theorem frameEffect_not_earlier (p : Params) (F : Image) (now : Rat) (S : Block) :
    earlierThanLastApply (frameEffect p F now S) now = false :=
  earlierThanLastApply_eq_false.mpr fun t h => by
    rw [frameEffect_OUT_time, Option.some.injEq] at h
    exact h.ge

end Sys2Proof.Machine
end

