-- ==== Sys2Proof/Laws/Decode.lean ====
section
/-! SUPPORT. The laws of packets and of the fields of a register image. -/

namespace Sys2Proof

/-- The mask of four mutes reads back as them (R96, R103). -/
@[simp] theorem muteOfMask_maskOfMute (m : Paths Bool) : muteOfMask (maskOfMute m) = m := by
  rcases m with ⟨a, b, c, n⟩
  cases a <;> cases b <;> cases c <;> cases n <;> decide

/-- The opcode map, read from the command's side. -/
theorem Opcode.ofByte?_eq_some {b : Byte} {op : Opcode} :
    Opcode.ofByte? b = some op ↔ b = op.byte := by
  cases op <;> revert b <;> decide +kernel

@[simp] theorem Opcode.ofByte?_byte (op : Opcode) : Opcode.ofByte? op.byte = some op :=
  Opcode.ofByte?_eq_some.mpr rfl

/-- The opcode bytes that spell no command (R102). -/
theorem Opcode.ofByte?_eq_none {b : Byte} : Opcode.ofByte? b = none ↔ Machine.isReserved b := by
  revert b
  decide +kernel

namespace Machine

/-- A register's byte stands at the image index that `REG_INDEX` gives it (R79). -/
theorem regByte_eq (p : Params) (F : Image) (r : Fin 14) :
    regByte p F r = F[p.REG_INDEX[r]] := rfl

/-- Where every register stands at its index of R80, a register's byte is the image's byte at
that index. -/
theorem regByte_default {p : Params} {F : Image} (h : p.REG_INDEX = Config.defaultRegIndex)
    (r : Fin 14) : regByte p F r = F.get r := by
  have hr : Config.defaultRegIndex.get r = r := by revert r; decide +kernel
  rw [regByte, h, hr]

/-- A FRAME of an image is `block FRAME` of it. -/
theorem exec_frame_toList (s : State) (F : Image) (now : Rat) :
    exec (.frame F.toList now) s = .next (s.issueFrame F now) := by
  simp [exec, execFrame, imageOf?_toList]

/-- A FRAME of an image at a `now` not earlier than the last apply has its effect (R105). -/
theorem exec_frame_next {s : State} {F : Image} {now : Rat} (h : timeOk s.S now) :
    exec (.frame F.toList now) s = .next (s.withS (frameEffect s.params F now s.S)) := by
  rw [exec_frame_toList, issueFrame_ok F (earlierThanLastApply_eq_false.mpr h)]

end Machine

end Sys2Proof
end

