-- ==== Sys2Proof/Laws/Host.lean ====
section
/-! SUPPORT. What the host sequencer's operations can do (R195 to R206), once for every
caller. -/

namespace Sys2Proof.Machine

@[simp] theorem emitFrame_params (s : State) (rate now : Rat) (F : Image) :
    (s.emitFrame rate now F).params = s.params := by simp [State.emitFrame]

@[simp] theorem emitFrame_IDX (s : State) (rate now : Rat) (F : Image) :
    (s.emitFrame rate now F).H.IDX = s.H.IDX + 1 := by simp [State.emitFrame]

@[simp] theorem emitFrame_NEXT (s : State) (rate now : Rat) (F : Image) :
    (s.emitFrame rate now F).H.NEXT = s.H.NEXT + 1 / rate := by simp [State.emitFrame]

@[simp] theorem emitFrame_TRACK (s : State) (rate now : Rat) (F : Image) :
    (s.emitFrame rate now F).H.TRACK = s.H.TRACK := by simp [State.emitFrame]

@[simp] theorem emitFrame_PLAYING (s : State) (rate now : Rat) (F : Image) :
    (s.emitFrame rate now F).H.PLAYING = s.H.PLAYING := by simp [State.emitFrame]

/-- A property that every turn of WAKE's loop keeps, the loop keeps. -/
theorem emitDue_keeps {P : State → Prop} {rate now : Rat}
    (hstep : ∀ s F, P s → P (s.emitFrame rate now F)) :
    ∀ (Fs : List Image) (s : State), P s → P (State.emitDue rate now Fs s)
  | [], _, h => h
  | F :: Fs, s, h => by
    unfold State.emitDue
    split
    · exact emitDue_keeps hstep Fs _ (hstep s F h)
    · exact h

/-- WAKE's loop sends the first `k` of the frames it is given, for the `k` at which its test
first fails: every tick time before the `k`-th lies within the lead window, and the `k`-th
does not unless the frames have run out. -/
theorem emitDue_spec (rate now : Rat) : ∀ (Fs : List Image) (s : State),
    ∃ k ≤ Fs.length,
      State.emitDue rate now Fs s =
        (Fs.take k).foldl (fun s F => s.emitFrame rate now F) s ∧
      (∀ j < k, s.H.NEXT + (j : Rat) / rate < now + s.params.LEAD_WINDOW) ∧
      (k < Fs.length → now + s.params.LEAD_WINDOW ≤ s.H.NEXT + (k : Rat) / rate)
  | [], s => ⟨0, le_refl 0, rfl, by simp, by simp⟩
  | F :: Fs, s => by
    by_cases h : s.H.NEXT < now + s.params.LEAD_WINDOW
    · obtain ⟨k, hk, heq, hlt, hge⟩ := emitDue_spec rate now Fs (s.emitFrame rate now F)
      simp only [emitFrame_NEXT, emitFrame_params] at hlt hge
      refine ⟨k + 1, by simpa using hk, ?_, ?_, ?_⟩
      · simp only [State.emitDue, h, if_true, heq, List.take_succ_cons, List.foldl_cons]
      · intro j hj
        cases j with
        | zero => simpa using h
        | succ j =>
          have := hlt j (by omega)
          push_cast
          rw [add_div]
          linarith
      · intro hk'
        have := hge (by simpa using hk')
        push_cast
        rw [add_div]
        linarith
    · refine ⟨0, Nat.zero_le _, by simp [State.emitDue, h], by simp, fun _ => ?_⟩
      simpa using not_lt.mp h

/-- `block FRAME` does not see the host sequencer. -/
theorem issueFrame_withH (s : State) (H : Sequencer) (F : Image) (now : Rat) :
    (s.withH H).issueFrame F now = (s.issueFrame F now).withH H := by
  cases h : earlierThanLastApply s.S now <;>
    simp only [State.issueFrame, State.withH_S, h, Bool.false_eq_true, if_true, if_false] <;> rfl

/-- A list of FRAMEs leaves the host sequencer and the parameters. -/
theorem issueFrames_H (now : Rat) (Fs : List Image) : ∀ s : State,
    (Fs.foldl (fun s F => s.issueFrame F now) s).H = s.H ∧
    (Fs.foldl (fun s F => s.issueFrame F now) s).params = s.params := by
  induction Fs with
  | nil => exact fun _ => ⟨rfl, rfl⟩
  | cons F Fs ih =>
    intro s
    obtain ⟨h1, h2⟩ := ih (s.issueFrame F now)
    exact ⟨h1.trans (issueFrame_H s F now), h2.trans (issueFrame_params s F now)⟩

/-- Sending a list of frames is the block's FRAMEs in order, all at the one `now`, and the
frame index and the tick time moved on by their number. -/
theorem emitFrames_eq (rate now : Rat) (Fs : List Image) : ∀ s : State,
    Fs.foldl (fun s F => s.emitFrame rate now F) s =
      (Fs.foldl (fun s F => s.issueFrame F now) s).withH
        { s.H with IDX := s.H.IDX + Fs.length, NEXT := s.H.NEXT + (Fs.length : Rat) / rate } := by
  induction Fs with
  | nil =>
    intro s
    simp [State.withH]
  | cons F Fs ih =>
    intro s
    have hcomm : ∀ (Gs : List Image) (u : State) (H : Sequencer),
        Gs.foldl (fun s F => s.issueFrame F now) (u.withH H) =
          (Gs.foldl (fun s F => s.issueFrame F now) u).withH H := by
      intro Gs
      induction Gs with
      | nil => exact fun _ _ => rfl
      | cons G Gs ihG =>
        intro u H
        rw [List.foldl_cons, List.foldl_cons, issueFrame_withH, ihG]
    rw [List.foldl_cons, ih, List.foldl_cons]
    simp only [State.emitFrame, issueFrame_H, hcomm, State.withH_H, List.length_cons]
    simp only [State.withH, State.mk.injEq, Sequencer.mk.injEq, true_and, and_true]
    refine ⟨by omega, ?_⟩
    push_cast
    ring

/-- What WAKE does while Playing with a Track: it sends the first `k` frames left, and ends
the track where those were all. -/
theorem exec_wake_playing {s : State} {track : Track} (now : Rat) (hp : s.H.PLAYING = true)
    (ht : s.H.TRACK = some track) :
    ∃ k ≤ (track.frames.drop s.H.IDX).length,
      exec (.wake now) s = .next
        (((((track.frames.drop s.H.IDX).take k).foldl (fun s F => s.issueFrame F now) s).withH
          { s.H with
            IDX := s.H.IDX + k, NEXT := s.H.NEXT + (k : Rat) / track.rate }).endOfTrack
          track.frames.length) ∧
      (∀ j < k, s.H.NEXT + (j : Rat) / track.rate < now + s.params.LEAD_WINDOW) ∧
      (k < (track.frames.drop s.H.IDX).length →
        now + s.params.LEAD_WINDOW ≤ s.H.NEXT + (k : Rat) / track.rate) := by
  obtain ⟨k, hk, heq, hlt, hge⟩ := emitDue_spec track.rate now (track.frames.drop s.H.IDX) s
  refine ⟨k, hk, ?_, hlt, hge⟩
  have hlen : ((track.frames.drop s.H.IDX).take k).length = k := by
    rw [List.length_take, min_eq_left hk]
  rw [emitFrames_eq, hlen] at heq
  simp only [exec, execWake, hp, if_true, ht, heq]

/-- A list of FRAMEs at a `now` not earlier than the last apply is refused nowhere: it is
their effects in order. -/
theorem issueFrames_ok {now : Rat} (Fs : List Image) : ∀ {s : State}, timeOk s.S now →
    Fs.foldl (fun s F => s.issueFrame F now) s =
      s.withS (Fs.foldl (fun S F => frameEffect s.params F now S) s.S) := by
  induction Fs with
  | nil => exact fun _ => rfl
  | cons F Fs ih =>
    intro s h
    rw [List.foldl_cons, issueFrame_ok F (earlierThanLastApply_eq_false.mpr h),
      ih (earlierThanLastApply_eq_false.mp (frameEffect_not_earlier _ _ _ _))]
    rfl

/-- A list of FRAMEs leaves the user controls. -/
theorem issueFrames_userControls (now : Rat) (Fs : List Image) : ∀ s : State,
    (Fs.foldl (fun s F => s.issueFrame F now) s).S.MUTE = s.S.MUTE ∧
    (Fs.foldl (fun s F => s.issueFrame F now) s).S.UVOL = s.S.UVOL := by
  induction Fs with
  | nil => exact fun _ => ⟨rfl, rfl⟩
  | cons F Fs ih =>
    intro s
    obtain ⟨h1, h2⟩ := ih (s.issueFrame F now)
    exact ⟨h1.trans (issueFrame_MUTE s F now), h2.trans (issueFrame_UVOL s F now)⟩

/-- What STOP does: nothing, or enter Stopped and reset the block (R199). -/
theorem stopPlayback_cases (s : State) :
    (s.H.PLAYING = false ∧ s.stopPlayback = s) ∨
    (s.H.PLAYING = true ∧
      s.stopPlayback = (s.withH { s.H with PLAYING := false }).blockReset) := by
  unfold State.stopPlayback
  cases h : s.H.PLAYING <;> simp

/-- After STOP the sequencer is Stopped (R199). -/
@[simp] theorem stopPlayback_PLAYING (s : State) : s.stopPlayback.H.PLAYING = false := by
  rcases stopPlayback_cases s with ⟨hp, h⟩ | ⟨_, h⟩ <;> rw [h]
  · exact hp
  · rfl

theorem hasFrames_iff {H : Sequencer} :
    H.hasFrames = true ↔ ∃ track, H.TRACK = some track ∧ track.frames ≠ [] := by
  unfold Sequencer.hasFrames
  cases H.TRACK <;> simp

/-- What the end-of-track test does after WAKE's loop (R200, R203). -/
theorem endOfTrack_cases (s : State) (n : Nat) :
    (s.H.IDX = n ∧ s.endOfTrack n = (s.withH { s.H with PLAYING := false }).blockReset) ∨
    (s.H.IDX ≠ n ∧ s.endOfTrack n = s) := by
  unfold State.endOfTrack
  by_cases h : s.H.IDX = n <;> simp [h]

/-- A list of FRAMEs keeps the invariant. -/
theorem issueFrames_inv {now : Rat} (Fs : List Image) : ∀ {s : State}, Inv s →
    Inv (Fs.foldl (fun s F => s.issueFrame F now) s) := by
  induction Fs with
  | nil => exact fun h => h
  | cons F Fs ih => exact fun h => ih (issueFrame_inv h F now)

theorem stopPlayback_inv {s : State} (hs : Inv s) : Inv s.stopPlayback := by
  unfold State.stopPlayback
  split
  · exact ⟨hs.params, restoreDefaults_inv hs.params hs.block, ⟨hs.host.rate, by simp⟩⟩
  · exact hs

theorem installTrack_inv {s : State} (hs : Inv s) {track : Track} (h : 0 < track.rate) :
    Inv (s.installTrack track) := by
  have hs' := stopPlayback_inv hs
  refine ⟨hs'.params, hs'.block, ⟨?_, ?_⟩⟩
  · intro t ht
    simp only [State.installTrack, State.withH_H, Option.some.injEq] at ht
    exact ht ▸ h
  · intro hp
    simp [State.installTrack] at hp

end Sys2Proof.Machine
end

