-- ==== Sys2Proof/Laws/Output.lean ====
section
/-!
SUPPORT. What one history entry more does to the output and to an oscillator's phase (R165,
R167), once for every caller.
-/

namespace Sys2Proof.Machine

/-- From an entry's time on, the output is that of the entry appended last (R165). -/
theorem OUT_at_append_of_le (p : Params) (hist : List HistEntry) {e : HistEntry} {u : Rat}
    (h : e.t ≤ u) : OUT_at p (hist ++ [e]) u = e.o := by
  simp [OUT_at, List.filter_append, h]

/-- Before an entry's time the output does not see it (R165). -/
theorem OUT_at_append_of_lt (p : Params) (hist : List HistEntry) {e : HistEntry} {u : Rat}
    (h : u < e.t) : OUT_at p (hist ++ [e]) u = OUT_at p hist u := by
  simp [OUT_at, List.filter_append, not_le.mpr h]

/-- Cutting an interval that ends by `b` at `min t b` does not change its length before `t`. -/
theorem spanBefore_min {a b c : Rat} (t : Rat) (h : b ≤ c) :
    spanBefore a b t = spanBefore a b (min t c) := by
  unfold spanBefore
  rw [← min_assoc, min_right_comm, min_eq_left h]

/-- An entry appended to a sorted history that is not empty: the cycles up to its time are
those before, and from its time on they grow at its frequency (R167). -/
theorem cyclesTo_append (X : Voice) (t : Rat) (e l : HistEntry) (hle : l.t ≤ e.t) :
    ∀ hist : List HistEntry, histSorted (hist ++ [l]) →
      cyclesTo X t (hist ++ [l] ++ [e]) =
        cyclesTo X (min t e.t) (hist ++ [l]) + e.o.freq.get X * max 0 (t - e.t)
  | [], _ => by simp only [List.nil_append, List.cons_append, cyclesTo, spanBefore, min_comm]
  | [a], hs => by
    have ih := cyclesTo_append X t e l hle [] (List.Pairwise.of_cons hs)
    simp only [List.cons_append, List.nil_append, cyclesTo] at ih ⊢
    rw [ih, spanBefore_min t hle]
    ring
  | a :: b :: bs, hs => by
    have ih := cyclesTo_append X t e l hle (b :: bs) (List.Pairwise.of_cons hs)
    have hb : b.t ≤ l.t := by
      have := List.pairwise_cons.mp (List.Pairwise.of_cons hs)
      exact this.1 l.t (by simp)
    simp only [List.cons_append, cyclesTo] at ih ⊢
    rw [ih, spanBefore_min t (hb.trans hle)]
    ring

/-- The phase under a history that begins with `e` (R167). -/
theorem phi_of_cons {S : Block} {e : HistEntry} {es : List HistEntry} (h : S.HIST = e :: es)
    (X : Voice) (t : Rat) :
    phi S X t =
      if e.t ≤ t then some (frac (S.OSC.get X + cyclesTo X t (e :: es))) else none := by
  unfold phi
  rw [h]

end Sys2Proof.Machine
end

