-- ==== Sys2Proof/Laws/PerInstr.lean ====
section
/-!
SUPPORT. One lemma per command about the shape of its packet (spec/30_encoding.md R94): the
opcode byte, and as many payload bytes as the opcode calls for.
-/

namespace Sys2Proof.Laws.PacketShape

/-- The packet of a well-formed command begins with its opcode byte and holds exactly the
payload bytes that opcode calls for. -/
def Statement (i : Instr) : Prop :=
  i.wellFormed = true →
    (encode i).opcode = i.opcode.byte ∧ (encode i).payload.length = i.opcode.payloadLength

theorem frame (F : List Byte) (now : Rat) : Statement (.frame F now) := fun h =>
  ⟨rfl, (beq_iff_eq.mp h : F.length = 14)⟩

theorem userctl (mute : Paths Bool) (vol : Paths Rat) : Statement (.userctl mute vol) :=
  fun _ => ⟨rfl, rfl⟩

theorem reset : Statement .reset := fun _ => ⟨rfl, rfl⟩

theorem load (result : LoadResult) : Statement (.load result) := fun _ => ⟨rfl, rfl⟩

theorem play (now : Rat) : Statement (.play now) := fun _ => ⟨rfl, rfl⟩

theorem stop : Statement .stop := fun _ => ⟨rfl, rfl⟩

theorem wake (now : Rat) : Statement (.wake now) := fun _ => ⟨rfl, rfl⟩

end Sys2Proof.Laws.PacketShape
end

