-- ==== Sys2Proof/Tests/Slice0.lean ====
section
/-!
SUPPORT. Tests of one step each, their expected results from spec/95_test_vectors.md; the
smoke tests of WellFormed; and for every obligation with hypotheses a concrete case that
meets them all.
-/

namespace Sys2Proof.Tests

-- One theorem at a time: checked side by side, they outgrow the thread stacks allowed.
set_option Elab.async false

open Sys2Proof Sys2Proof.Machine

/-! ## Small states -/

/-- The state a command leads to. -/
def nextOf (o : Host.Outcome State Fault Refusal) : Option State :=
  match o with
  | .next t => some t
  | .fault _ => none
  | .refused _ => none

/-- An outcome that has a next state is one. -/
theorem next_of {o : Host.Outcome State Fault Refusal} (h : (nextOf o).isSome = true) :
    ∃ t, o = .next t := by
  cases o with
  | next t => exact ⟨t, rfl⟩
  | fault _ => cases h
  | refused _ => cases h

/-- Power-on under the test configuration of spec/95 section 0, with some start phases. -/
def s0 : State := State.powerOn Config.test ⟨0, 1 / 4, 1 / 2⟩

/-- An image of spec/95 sections 2.2 to 2.5 by the registers those use. -/
def img (f0 f1 f6 f7 f8 f9 f10 f11 f12 f13 : Byte) : Image :=
  #v[f0, f1, 0, 0, 0, 0, f6, f7, f8, f9, f10, f11, f12, f13]

/-- The image of row T1. -/
def imgT1 : Image := img 0x1C 0x01 0 0x3E 0x0F 0 0 0 0 0

/-- The image of section 2.5.1 with shape 4: voice A on the envelope, ep = 0x0100. -/
def imgE4 : Image := img 0 0 0 0x3E 0x10 0 0 0x00 0x01 0x04

/-- The image of row M5. -/
def imgM5 : Image := img 0 0 0 0x00 0x0F 0x0A 0x05 0 0 0

/-- `s0` after `FRAME @0` with the image of row T1. -/
def s1 : State := s0.issueFrame imgT1 0

/-- `s0` after `FRAME @0` with the shape 4 image. -/
def sE : State := s0.issueFrame imgE4 0

/-- The Track of row H3, but of six frames. -/
def track6 : Track := ⟨List.replicate 6 imgT1, 50⟩

/-- `s0` after a LOAD of `track6` and `PLAY @0`. -/
def sP : State := (s0.installTrack track6).withH ⟨some track6, 0, 0, true⟩

/-- The test configuration with the two lowest registers at each other's index, and a period
of its own at ep 7. -/
def pSwap : Params :=
  { Config.test with
    REG_INDEX := #v[1, 0, 2, 3, 4, 5, 6, 7, 8, 9, 10, 11, 12, 13]
    ENV_PERIOD_OVERRIDE := [(7, 1 / 50)] }

/-- Power-on under it. -/
def sSwap : State := State.powerOn pSwap ⟨0, 0, 0⟩

/-- `s0` with `p` as its one pending packet. -/
def sPending (p : Packet) : State := s0.withPending [p]

/-! ## WellFormed -/

theorem test_wf_refuses_frame_of_13_bytes :
    (Instr.frame (List.replicate 13 0) 0).wellFormed = false := by decide +kernel

theorem test_wf_refuses_frame_of_15_bytes :
    (Instr.frame (List.replicate 15 0) 0).wellFormed = false := by decide +kernel

theorem test_wf_refuses_track_rate_zero :
    (Instr.load (.ok ⟨[imgT1], 0⟩)).wellFormed = false := by decide +kernel

theorem test_wf_refuses_track_rate_negative :
    (Instr.load (.ok ⟨[imgT1], -50⟩)).wellFormed = false := by decide +kernel

theorem test_wf_accepts_the_rest :
    (Instr.frame imgT1.toList 0).wellFormed = true ∧
    (Instr.load (.ok track6)).wellFormed = true := by decide +kernel

/-! ## Decoding: packets of spec/95 sections 2.1 and 3.1, operands zero unless shown -/

theorem test_decode_frame :
    decode ⟨0x01, [0x1C, 0x01, 0x00, 0x00, 0x00, 0x00, 0x00, 0x3E, 0x08, 0x00, 0x00, 0x00, 0x00,
      0x00], { TypedOperands.zero with now := 1 / 50 }⟩ =
      .ok (.frame [0x1C, 0x01, 0, 0, 0, 0, 0, 0x3E, 0x08, 0, 0, 0, 0, 0] (1 / 50), []) := rfl

theorem test_decode_userctl :
    decode ⟨0x02, [0x04], { TypedOperands.zero with vol := ⟨1, 1, 1, 1⟩ }⟩ =
      .ok (.userctl ⟨false, false, true, false⟩ ⟨1, 1, 1, 1⟩, []) := rfl

/-- Row U3: bit 4 of the mask is ignored. -/
theorem test_decode_userctl_mask_high_bits :
    decode ⟨0x02, [0x1F], { TypedOperands.zero with vol := ⟨1, 1, 1, 1⟩ }⟩ =
      .ok (.userctl ⟨true, true, true, true⟩ ⟨1, 1, 1, 1⟩, []) := rfl

theorem test_decode_reset : decode ⟨0x03, [], TypedOperands.zero⟩ = .ok (.reset, []) := rfl

theorem test_decode_load : decode ⟨0x10, [], TypedOperands.zero⟩ =
    .ok (.load (.ok ⟨[], 50⟩), []) := rfl

theorem test_decode_play : decode ⟨0x11, [], TypedOperands.zero⟩ = .ok (.play 0, []) := rfl

theorem test_decode_stop : decode ⟨0x12, [], TypedOperands.zero⟩ = .ok (.stop, []) := rfl

theorem test_decode_wake : decode ⟨0x13, [], TypedOperands.zero⟩ = .ok (.wake 0, []) := rfl

/-- Rows K7 and K8. -/
theorem test_decode_reserved :
    ∀ op ∈ [0x00#8, 0x04#8, 0x0F#8, 0x14#8, 0xFF#8],
      decode ⟨op, [], TypedOperands.zero⟩ = .error .ReservedOpcode := by decide +kernel

/-- Row K9: a FRAME cut short. -/
theorem test_decode_frame_short :
    decode ⟨0x01, [0x1C, 0x01, 0x00], TypedOperands.zero⟩ =
      .ok (.frame [0x1C, 0x01, 0x00] 0, []) := rfl

/-- The opcode byte alone, as the table gives it. -/
theorem test_table_words :
    [0x01, 0x02, 0x03, 0x10, 0x11, 0x12, 0x13, 0x00].map (decodeTableWord 8) =
      [some (.frame (List.replicate 14 0) 0),
       some (.userctl ⟨false, false, false, false⟩ ⟨0, 0, 0, 0⟩), some .reset,
       some (.load (.ok ⟨[], 50⟩)), some (.play 0), some .stop, some (.wake 0), none] := by
  decide +kernel

/-- The whole FRAME packet of row K1 as one table word, its first byte lowest. -/
theorem test_table_word_frame :
    decodeTableWord 120 0x0000000000_0F3E_0000000000_011C01 =
      some (.frame [0x1C, 0x01, 0, 0, 0, 0, 0, 0x3E, 0x0F, 0, 0, 0, 0, 0] 0) := by decide +kernel

/-- After reset the next step runs the table word's instruction. -/
theorem test_fetch_word_frame :
    (nextOf (step (State.reset.withFetchWord 8 0x01))).map (fun t => t.S.HIST.length) =
      some 1 := by rfl

theorem test_fetch_word_load :
    (nextOf (step (State.reset.withFetchWord 8 0x10))).map (fun t => t.H.TRACK) =
      some (some ⟨[], 50⟩) := by rfl

/-! ## FRAME -/

/-- Row T1. -/
theorem test_frame_tone :
    (nextOf (exec (.frame imgT1.toList 0) s0)).map
      (fun t => (t.S.TGT.freq, t.S.TGT.gain.A, t.S.TGT.on.A)) =
      some (⟨31250 / 71, 1, 1⟩, 1, true) := by decide +kernel

/-- Row M8: the noise gain is half the loudest effective level. -/
theorem test_frame_noise_gate :
    (nextOf (exec (.frame imgM5.toList 0)
      (s0.withS (s0.S.writeUserControls Config.test ⟨false, false, false, false⟩
        ⟨1 / 2, 1, 1, 1 / 2⟩)))).map
      (fun t => (t.S.OUT.gain, t.S.OUT.non, t.S.OUT.ngain)) =
      some (⟨1 / 2, 2 / 3, 1 / 3⟩, true, 1 / 3) := by decide +kernel

/-! ## The envelope: section 2.5 -/

/-- Section 2.5.1, shape 4 at t = 0.008192 after the retrigger at 0. -/
theorem test_envelope_advance :
    (ENV_UPDATE Config.test sE.S.ENV 4 (512 / 15625) (128 / 15625)).level = 1 / 4 ∧
    (ENV_UPDATE Config.test sE.S.ENV 4 (512 / 15625) (128 / 15625)).mode = .Running := by
  decide +kernel

/-- Section 2.5.1, shape 13 at t = 0.040960: held at 1 after a full period. -/
theorem test_envelope_hold :
    (ENV_UPDATE Config.test { sE.S.ENV with shape := some 13 } 13 (512 / 15625)
      (640 / 15625)).level = 1 := by decide +kernel

/-- Section 2.5.1, shape 14 at t = 0.024576: the triangle's way down. -/
theorem test_envelope_triangle :
    (ENV_UPDATE Config.test { sE.S.ENV with shape := some 14 } 14 (512 / 15625)
      (384 / 15625)).level = 1 / 2 := by decide +kernel

/-- Row E8: ep 2 after ep 1 retriggers. -/
theorem test_envelope_period_retriggers :
    retriggers Config.test { sE.S.ENV with period := ENV_PERIOD_SECONDS Config.test 1 } 4
      (ENV_PERIOD_SECONDS Config.test 2) = true ∧
    ENV_PERIOD_SECONDS Config.test 0 = 2 / 15625 ∧
    ENV_PERIOD_SECONDS Config.test 2 = 4 / 15625 := by decide +kernel

/-! ## The output: section 2.6, row O2 -/

/-- FRAME @1.5 after FRAME @1: the output between them, and the phase at 1.5. -/
theorem test_output_tap :
    (nextOf (exec (.frame (img 0x47 0 0 0x3E 0x05 0 0 0 0 0).toList (3 / 2))
      (s0.issueFrame imgT1 1))).map
      (fun t => ((OUT_at t.params t.S.HIST (6 / 5)).freq.A,
        amplitude t.params t.S.HIST .A (3 / 2), phi t.S .A (3 / 2), phi t.S .A (1 / 2))) =
      some (31250 / 71, 1 / 3, some (5 / 71), none) := by decide +kernel

/-! ## USERCTL and RESET -/

/-- Row U1. -/
theorem test_userctl_clamps :
    (nextOf (exec (.userctl ⟨false, false, true, false⟩ ⟨1, 1 / 2, 2, -3⟩) s0)).map
      (fun t => (t.S.MUTE, t.S.UVOL)) =
      some (⟨false, false, true, false⟩, ⟨1, 1 / 2, 1, 0⟩) := by decide +kernel

/-- Row S1: the targets fall silent and the outputs stay. -/
theorem test_reset_keeps_the_output :
    (nextOf (exec .reset s1)).map
      (fun t => (t.S.TGT.gain.A, t.S.OUT.gain.A, t.S.ENV.shape, t.S.HIST.length)) =
      some (0, 1, none, 1) := by decide +kernel

/-! ## The host sequencer -/

/-- Row H8. -/
theorem test_load_while_playing :
    (nextOf (exec (.load (.ok ⟨[imgE4], 25⟩)) { sP with S := s1.S })).map
      (fun t => (t.H, t.S.TGT.gain.A, t.S.OUT.gain.A)) =
      some (⟨some ⟨[imgE4], 25⟩, 0, 0, false⟩, 0, 1) := by decide +kernel

/-- Row H7. -/
theorem test_load_failure :
    (nextOf (exec (.load (.fail .Malformed)) sP)).map (fun t => (t.H, t.port.reports)) =
      some (sP.H, [.loadFailed .Malformed]) := by decide +kernel

/-- Row H2's PLAY. -/
theorem test_play :
    (nextOf (exec (.play 5) (s0.installTrack track6))).map (fun t => t.H) =
      some ⟨some track6, 0, 5, true⟩ := by decide +kernel

/-- Row H5's STOP: the frame index stays. -/
theorem test_stop :
    (nextOf (exec .stop (sP.withH ⟨some track6, 4, 2 / 25, true⟩))).map
      (fun t => (t.H.IDX, t.H.PLAYING)) = some (4, false) := by decide +kernel

/-- Row H3: four frames are due at the first wake-up. -/
theorem test_wake_sends_four :
    (nextOf (exec (.wake 0) sP)).map
      (fun t => (t.H.IDX, t.H.NEXT, t.H.PLAYING, t.S.HIST.length)) =
      some (4, 2 / 25, true, 4) := by decide +kernel

/-- Row H1, with six frames and a late wake-up: all are sent, then Stopped and RESET. -/
theorem test_wake_ends_the_track :
    (nextOf (exec (.wake (1 / 5)) sP)).map
      (fun t => (t.H.IDX, t.H.NEXT, t.H.PLAYING, t.S.TGT.gain.A, t.S.OUT.gain.A)) =
      some (6, 3 / 25, false, 0, 1) := by decide +kernel

/-! ## Command text: R103 -/

/-- Brackets outside R103's forms spell no command; a LOAD's do. -/
theorem test_text_brackets :
    readCommand "RESET [x]".toList = none ∧
    readCommand "LOAD rate=50 frames=]..[".toList = none ∧
    readCommand "LOAD rate=50 frames=[] ; none".toList = some (.load (.ok ⟨[], 50⟩)) := by
  decide +kernel

/-! ## Refusals -/

/-- Row O3. -/
theorem test_time_reversal :
    (nextOf (exec (.frame imgT1.toList (1 / 2)) (s0.issueFrame imgT1 1))).map
      (fun t => (t.S.REFUSED, t.S.HIST.length, t.port.reports)) =
      some (true, 1, [.refused .TimeReversal]) := by decide +kernel

/-- Row H10. -/
theorem test_bad_rate :
    (nextOf (exec (.load (.ok ⟨[imgT1], 0⟩)) s0)).map (fun t => (t.S.REFUSED, t.H)) =
      some (true, s0.H) := by decide +kernel

/-- Row K7, as a step. -/
theorem test_reserved_opcode :
    (nextOf (step (sPending ⟨0x00, [], TypedOperands.zero⟩))).map
      (fun t => (t.S.REFUSED, t.port.reports, t.port.pending)) =
      some (true, [.refused .ReservedOpcode], []) := by decide +kernel

/-! ## Witnesses: the invariant, the times -/

/-- The invariant holds of `s0`. -/
theorem inv_s0 : Inv s0 where
  params := Config.defaults_valid (by norm_num)
  block := {
    uvol := by intro V; cases V <;> decide +kernel
    env := ⟨by decide +kernel, by decide +kernel, by decide +kernel⟩
    tgt := silent_inRange (Config.defaults_valid (by norm_num))
    tgtOff := silent_offIsSilent _
    out := silent_inRange (Config.defaults_valid (by norm_num))
    outOff := silent_offIsSilent _
    hist := fun e he => absurd he List.not_mem_nil
    sorted := List.Pairwise.nil
    time := rfl
    last := rfl
    armed := fun h => absurd rfl h
    osc := by intro X; cases X <;> decide +kernel }
  host := ⟨nofun, nofun⟩

theorem inv_s1 : Inv s1 := issueFrame_inv inv_s0 imgT1 0

theorem inv_sE : Inv sE := issueFrame_inv inv_s0 imgE4 0

theorem inv_sP : Inv sP where
  params := inv_s0.params
  block := inv_s0.block
  host :=
    ⟨fun t h => by cases h; decide +kernel, fun _ => ⟨track6, rfl, by decide +kernel⟩⟩

/-- A check of one order of times that evaluates. -/
theorem timeOk_of {S : Block} {now : Rat} (h : earlierThanLastApply S now = false) :
    timeOk S now := earlierThanLastApply_eq_false.mp h

/-- No FRAME yet: every `now` is good. -/
theorem timeOk_s0 (now : Rat) : timeOk s0.S now := fun _ h => by cases h

/-- The boundary: `now` equal to the last apply. -/
theorem timeOk_s1 : timeOk s1.S 0 := timeOk_of (by decide +kernel)

theorem timeOk_sE : timeOk sE.S 0 := timeOk_of (by decide +kernel)

/-! ## Witnesses: packets and the step -/

theorem witness_DecodeOfEncodeGivesTheCommandBack :
    ∀ i ∈ [Instr.frame imgT1.toList (-1), .userctl ⟨true, false, true, true⟩ ⟨2, -1, 0, 1⟩,
      .reset, .load (.ok track6), .load (.fail .Malformed), .play 3, .stop, .wake 4],
      i.wellFormed = true := by decide +kernel

theorem witness_EveryOpcodeByteIsACommandOrReserved :
    (∀ op ∈ [0x00#8, 0x04#8, 0x0F#8, 0x14#8, 0xFF#8], isReserved op) ∧
    (∀ op ∈ [0x01#8, 0x03#8, 0x10#8, 0x13#8], ¬ isReserved op) ∧
    decode ⟨0x01, List.replicate 14 0, TypedOperands.zero⟩ =
      .ok (.frame (List.replicate 14 0) 0, []) ∧
    Opcode.FRAME.payloadLength ≤ (List.replicate 14 (0 : Byte)).length := by
  refine ⟨by decide +kernel, by decide +kernel, rfl, by decide +kernel⟩

theorem witness_StepRunsTheDecodedCommand :
    (sPending ⟨0x03, [0x12], TypedOperands.zero⟩).port.pending =
      [⟨0x03, [0x12], TypedOperands.zero⟩] ∧
    decode ⟨0x03, [0x12], TypedOperands.zero⟩ = .ok (.reset, [0x12]) := ⟨rfl, rfl⟩

theorem witness_StepWaitsForACommand : s0.port.pending = [] := rfl

theorem witness_PacketsThatSpellNoCommandAreRefused :
    (∀ p : Packet, (sPending p).port.pending = p :: []) ∧
    isReserved 0x00 ∧ isReserved 0x04 ∧ isReserved 0x0F ∧ isReserved 0x14 ∧ isReserved 0xFF ∧
    (List.replicate 13 (0 : Byte)).length < 14 ∧
    (⟨0x02, [], TypedOperands.zero⟩ : Packet).payload = [] :=
  ⟨fun _ => rfl, by decide +kernel, by decide +kernel, by decide +kernel, by decide +kernel,
    by decide +kernel, by decide +kernel, rfl⟩

/-! ## Witnesses: the register image -/

theorem witness_NoiseAndVolumeFieldsAreAssembled :
    s0.params.REG_INDEX = Config.defaultRegIndex := rfl

/-- The default index map, and another, under which the first image byte is read elsewhere. -/
theorem witness_ToneMixerAndEnvelopeFieldsAreAssembled :
    Config.params.REG_INDEX = Config.defaultRegIndex ∧
    (fieldsOf pSwap imgT1).tp.A.toNat = 1 + 256 * (0x1C % 16) := ⟨rfl, by decide +kernel⟩

/-- Under the default index map and under another. -/
theorem witness_UnusedImageBitsChangeNothing :
    (∃ F F' : Image, F ≠ F' ∧ ∀ r : Fin 14, F[s0.params.REG_INDEX[r]] &&& usedBits[r] =
      F'[s0.params.REG_INDEX[r]] &&& usedBits[r]) ∧
    ∃ F F' : Image, F ≠ F' ∧ ∀ r : Fin 14, F[sSwap.params.REG_INDEX[r]] &&& usedBits[r] =
      F'[sSwap.params.REG_INDEX[r]] &&& usedBits[r] :=
  ⟨⟨imgT1, img 0x1C 0xF1 0xE0 0xFE 0xEF 0xE0 0xE0 0 0 0xF0, by decide +kernel,
      by decide +kernel⟩,
    imgT1, img 0xFC 0x01 0 0x3E 0x0F 0 0 0 0 0, by decide +kernel, by decide +kernel⟩

/-! ## Witnesses: FRAME -/

theorem witness_FrameIsTotal :
    Inv s1 ∧ imgE4.toList.length = 14 ∧ timeOk s1.S 0 := ⟨inv_s1, by decide +kernel, timeOk_s1⟩

theorem witness_FrameWritesTheToneTargets :
    timeOk s1.S 0 ∧ (fieldsOf s1.params imgT1).tp.A.toNat ≠ 0 ∧
    (fieldsOf s1.params imgE4).tp.A.toNat = 0 ∧ Inv s1 ∧ s1.params.USER_VOL_MAX = 1 :=
  ⟨timeOk_s1, by decide +kernel, by decide +kernel, inv_s1, rfl⟩

theorem witness_FrameWritesTheNoiseFrequency : timeOk s0.S 7 := timeOk_s0 7

/-- A state and image with noise on, and one with noise off. -/
theorem witness_FrameWritesTheNoiseGate :
    timeOk s0.S 0 ∧ noiseOn (fieldsOf Config.test imgM5) 1 s0.S = true ∧
    noiseOn (fieldsOf Config.test imgT1) 1 s0.S = false :=
  ⟨timeOk_s0 0, by decide +kernel, by decide +kernel⟩

/-- Each of the three retrigger conditions alone. -/
theorem witness_FrameRetriggersTheEnvelope :
    (timeOk s0.S 0 ∧ s0.S.ENV.shape = none) ∧
    (timeOk s1.S 0 ∧ s1.S.ENV.shape ≠ none ∧
      s1.S.ENV.shape ≠ some (envShape s1.params (img 0 0 0 0 0 0 0 0 0 1))) ∧
    (timeOk s1.S 0 ∧ s1.S.ENV.shape = some (envShape s1.params (img 0 0 0 0 0 0 0 2 0 0)) ∧
      s1.params.ENV_PERIOD_TOLERANCE <
        |ENV_PERIOD_SECONDS s1.params (envPeriod s1.params (img 0 0 0 0 0 0 0 2 0 0)) -
          s1.S.ENV.period|) :=
  ⟨⟨timeOk_s0 0, rfl⟩, ⟨timeOk_s1, by decide +kernel, by decide +kernel⟩,
    timeOk_s1, by decide +kernel, by rw [← absRat_eq_abs]; decide +kernel⟩

/-- The boundary of the tolerance: a difference of exactly 0, from another period register. -/
theorem witness_FrameAdvancesTheEnvelope :
    timeOk s1.S 0 ∧ s1.S.ENV.shape = some (envShape s1.params (img 0 0 0 0 0 0 0 1 0 0)) ∧
    |ENV_PERIOD_SECONDS s1.params (envPeriod s1.params (img 0 0 0 0 0 0 0 1 0 0)) -
      s1.S.ENV.period| ≤ s1.params.ENV_PERIOD_TOLERANCE :=
  ⟨timeOk_s1, by decide +kernel, by rw [← absRat_eq_abs]; decide +kernel⟩

theorem witness_FrameAppliesItsTargets : timeOk sE.S 0 := timeOk_sE

theorem witness_FrameLeavesTheRest : timeOk sE.S (1 / 8) := timeOk_of (by decide +kernel)

theorem witness_FrameRefusals :
    (List.replicate 13 (0 : Byte)).length ≠ 14 ∧ (List.replicate 15 (0 : Byte)).length ≠ 14 ∧
    imgT1.toList.length = 14 ∧ s1.S.OUT.time = some 0 ∧ (-1 / 1000000 : Rat) < 0 := by
  decide +kernel

/-- A FRAME after which a tone and the noise are off. -/
theorem witness_PathsThatAreOffHaveGainZero :
    timeOk s1.S 0 ∧
    exec (.frame imgT1.toList 0) s1 = .next (s1.withS (frameEffect s1.params imgT1 0 s1.S)) ∧
    (frameEffect s1.params imgT1 0 s1.S).TGT.on.get .B = false ∧
    (frameEffect s1.params imgT1 0 s1.S).TGT.non = false :=
  ⟨timeOk_s1, exec_frame_next timeOk_s1, by decide +kernel, by decide +kernel⟩

/-- A FRAME that advances the envelope. -/
theorem witness_RepeatedFrameSettles :
    Inv sE ∧ timeOk sE.S 0 ∧
    exec (.frame imgE4.toList 0) sE = .next (sE.withS (frameEffect sE.params imgE4 0 sE.S)) ∧
    (frameEffect sE.params imgE4 0 sE.S).ENV.mode = .Running :=
  ⟨inv_sE, timeOk_sE, exec_frame_next timeOk_sE, by decide +kernel⟩

/-- Two states and images of one pitch, and two images of one loudness. -/
theorem witness_PitchAndLoudnessAreIndependent :
    s0.params = sE.params ∧ timeOk s0.S 3 ∧ timeOk sE.S 0 ∧
    (∃ t t', exec (.frame imgE4.toList 3) s0 = .next t ∧
      exec (.frame imgM5.toList 0) sE = .next t') ∧
    (∀ r : Fin 14, r.val < 6 →
      imgE4[s0.params.REG_INDEX[r]] = imgM5[s0.params.REG_INDEX[r]]) ∧
    imgT1 ≠ img 0xFF 0x0F 0 0x3E 0x0F 0 0 0 0 0 ∧
    (∀ r : Fin 14, 6 ≤ r.val → imgT1[s0.params.REG_INDEX[r]] =
      (img 0xFF 0x0F 0 0x3E 0x0F 0 0 0 0 0)[s0.params.REG_INDEX[r]]) :=
  ⟨rfl, timeOk_s0 3, timeOk_sE,
    ⟨_, _, exec_frame_next (timeOk_s0 3), exec_frame_next timeOk_sE⟩,
    by decide +kernel, by decide +kernel, by decide +kernel⟩

theorem witness_SilenceCommandSilences :
    s1.params.REG_INDEX = Config.defaultRegIndex ∧ timeOk s1.S 0 := ⟨rfl, timeOk_s1⟩

/-! ## Witnesses: the envelope -/

/-- The lower boundary and an inner phase. -/
theorem witness_LevelLawNeedsNoClamp :
    (0 : Rat) ≤ 0 ∧ (0 : Rat) < 1 ∧ (0 : Rat) ≤ 999 / 1000 ∧ (999 / 1000 : Rat) < 1 := by
  decide +kernel

/-- The five clauses share no shape code and leave none out. -/
theorem witness_EveryShapeHasItsWaveFamily :
    ∀ shape : BitVec 4,
      ([[0, 1, 8, 9], [2, 3, 10, 11], [4, 12], [5, 7, 13, 15], [6, 14]].filter
        fun l => l.contains shape.toNat).length = 1 := by decide +kernel

theorem witness_ContinueBitOnlyRetriggers : sE.S.ENV.shape = some 4 := by decide +kernel

theorem witness_PhaseWrapsByWholePeriods :
    sE.S.ENV.InRange ∧ (0 : Rat) ≤ 0 ∧ (0 : Rat) < 1 ∧
    sE.S.ENV.lastTime + 3 * sE.S.ENV.period =
      sE.S.ENV.lastTime + (((3 : Nat) : Rat) + 0) * sE.S.ENV.period :=
  ⟨inv_sE.block.env, le_refl 0, zero_lt_one, by decide +kernel⟩

/-- A FRAME at the last apply, and one a quarter period later. -/
theorem witness_PhaseProgressesWithTheClock :
    Inv sE ∧ timeOk sE.S 0 ∧ sE.S.OUT.time = some 0 ∧
    (frameEffect sE.params imgE4 0 sE.S).ENV.mode = .Running ∧
    timeOk sE.S (128 / 15625) ∧ (0 : Rat) < 128 / 15625 ∧
    (frameEffect sE.params imgE4 (128 / 15625) sE.S).ENV.mode = .Running ∧
    sE.S.ENV.phase + (128 / 15625 - 0) / sE.S.ENV.period < 1 :=
  ⟨inv_sE, timeOk_sE, by decide +kernel, by decide +kernel, timeOk_of (by decide +kernel),
    by decide +kernel, by decide +kernel, by decide +kernel⟩

/-- Each clause: no value of its own at 6, one at 7, and none at all. -/
theorem witness_OnlyPeriodsZeroAndOneCoincide :
    (∀ e ∈ pSwap.ENV_PERIOD_OVERRIDE, e.1 ≠ 6) ∧
    (pSwap.ENV_PERIOD_OVERRIDE = [] ++ (7, 1 / 50) :: [] ∧
      ∀ e ∈ ([] : List (BitVec 16 × Rat)), e.1 ≠ 7) ∧
    Config.test.Valid ∧ Config.test.ENV_PERIOD_OVERRIDE = [] :=
  ⟨by decide +kernel, ⟨rfl, nofun⟩, inv_s0.params, rfl⟩

/-! ## Witnesses: the output -/

theorem witness_ApplyIsAStepAtItsInstant :
    Inv s1 ∧ timeOk s1.S 2 ∧ ∃ t, exec (.frame imgE4.toList 2) s1 = .next t :=
  ⟨inv_s1, timeOk_of (by decide +kernel), _,
    exec_frame_next (timeOk_of (by decide +kernel))⟩

/-- The session's first FRAME, and a later one at the last apply. -/
theorem witness_OscillatorsRunOnAcrossAFrame :
    (Inv s0 ∧ timeOk s0.S 1 ∧ s0.S.HIST = [] ∧
      ∃ t, exec (.frame imgT1.toList 1) s0 = .next t) ∧
    Inv s1 ∧ timeOk s1.S 0 ∧ s1.S.HIST ≠ [] ∧
      ∃ t, exec (.frame imgE4.toList 0) s1 = .next t :=
  ⟨⟨inv_s0, timeOk_s0 1, rfl, _, exec_frame_next (timeOk_s0 1)⟩,
    inv_s1, timeOk_s1, by decide +kernel, _, exec_frame_next timeOk_s1⟩

/-- With no FRAME yet, and just before the first. -/
theorem witness_SilentBeforeTheFirstApply :
    (∀ e ∈ s0.S.HIST, (9 : Rat) < e.t) ∧ ∀ e ∈ s1.S.HIST, (-1 / 1000000 : Rat) < e.t := by
  decide +kernel

theorem witness_MixIsBoundedByFour :
    ∃ w : Signals, Inv s1 ∧ (∀ x, |w.TONE_WAVE x| ≤ 1) ∧
      |filteredNoise w s1.params s1.S 5| ≤ 1 :=
  ⟨⟨fun _ => 1, fun _ _ _ => -1, fun _ => 0⟩, inv_s1, fun _ => by simp,
    by simp [filteredNoise]⟩

/-- A command that is no FRAME, and a FRAME heard from its own instant on. -/
theorem witness_OnlyFramesAreHeard :
    (∃ t, exec .reset s1 = .next t ∧ Instr.reset.opcode ≠ .FRAME ∧
      Instr.reset.opcode ≠ .WAKE) ∧
    Inv s1 ∧ timeOk s1.S 0 ∧ (∃ t, exec (.frame imgM5.toList 0) s1 = .next t) ∧
    (0 : Rat) ≤ 0 :=
  ⟨⟨_, rfl, by decide, by decide⟩, inv_s1, timeOk_s1, ⟨_, exec_frame_next timeOk_s1⟩,
    le_refl 0⟩

/-! ## Witnesses: USERCTL and RESET -/

theorem witness_ControlCommandsAreIdempotent :
    (∃ t, exec (.userctl ⟨true, true, true, true⟩ ⟨3, -1, 0, 1⟩) s1 = .next t) ∧
    ∃ t, exec .reset s1 = .next t := ⟨⟨_, rfl⟩, _, rfl⟩

theorem witness_MuteActsFromTheNextFrame :
    (∃ t, exec (.userctl ⟨true, false, false, false⟩ ⟨1, 1, 1, 1⟩) s1 = .next t) ∧
    (⟨true, false, false, false⟩ : Paths Bool).get Voice.A.path = true ∧ timeOk s1.S 0 :=
  ⟨⟨_, rfl⟩, rfl, timeOk_s1⟩

theorem witness_FrameAfterResetRetriggers :
    (∃ t, exec .reset s1 = .next t) ∧ timeOk s1.S 0 ∧
    (fieldsOf s1.params imgE4).envSel.get .A = true ∧
    (fieldsOf s1.params imgE4).toneOff.get .A = false :=
  ⟨⟨_, rfl⟩, timeOk_s1, by decide +kernel, by decide +kernel⟩

/-! ## Witnesses: the host sequencer -/

/-- While Playing and while Stopped. -/
theorem witness_LoadStopsThenInstallsTheTrack :
    0 < track6.rate ∧ sP.H.PLAYING = true ∧ s0.H.PLAYING = false := by decide +kernel

theorem witness_LoadWithBadRateIsRefused :
    (⟨[imgT1], 0⟩ : Track).rate ≤ 0 ∧ (⟨[], -1⟩ : Track).rate ≤ 0 := by decide +kernel

theorem witness_PlayStartsAtFrameZero :
    (s0.installTrack track6).H.PLAYING = false ∧
    (s0.installTrack track6).H.TRACK = some track6 ∧ track6.frames ≠ [] := by decide +kernel

theorem witness_StopEntersStoppedAndResets : sP.H.PLAYING = true := rfl

theorem witness_TransportNoOpsChangeNothing :
    s0.H.PLAYING = false ∧ sP.H.PLAYING = true ∧ s0.H.TRACK = none ∧
    (s0.installTrack ⟨[], 50⟩).H.TRACK = some ⟨[], 50⟩ := by decide +kernel

/-- With some frames left unsent, and with all sent. -/
theorem witness_WakeSendsTheDueFrames :
    s0.H.PLAYING = false ∧ sP.H.PLAYING = true ∧ sP.H.TRACK = some track6 ∧ sP.H.IDX ≤ track6.frames.length ∧
    (nextOf (exec (.wake 0) sP)).map (·.H.IDX) = some 4 ∧
    (nextOf (exec (.wake 1) sP)).map (·.H.IDX) = some track6.frames.length := by
  decide +kernel

/-- The boundary: `now` equal to the tick time. -/
theorem witness_WakeBatchSize :
    sP.H.PLAYING = true ∧ sP.H.TRACK = some track6 ∧ sP.H.IDX ≤ track6.frames.length ∧
    0 < track6.rate ∧ (∃ t, exec (.wake 0) sP = .next t) ∧
    0 ≤ sP.params.LEAD_WINDOW ∧ 0 ≤ sP.H.NEXT :=
  ⟨rfl, rfl, by decide +kernel, by decide +kernel, next_of (by decide +kernel),
    by decide +kernel, by decide +kernel⟩

theorem witness_EndOfTrackHoldsTheOutput :
    Inv sP ∧ sP.H.PLAYING = true ∧ sP.H.TRACK = some track6 ∧ timeOk sP.S (1 / 5) ∧
    sP.H.NEXT + ((track6.frames.length - 1 - sP.H.IDX : Nat) : Rat) / track6.rate <
      1 / 5 + sP.params.LEAD_WINDOW :=
  ⟨inv_sP, rfl, rfl, timeOk_s0 _, by decide +kernel⟩

theorem witness_TickTimeFollowsThePlayTime :
    sP.H.PLAYING = true ∧ sP.H.TRACK = some track6 ∧ 0 < track6.rate ∧
    sP.H.IDX ≤ track6.frames.length ∧ sP.H.NEXT = 0 + (sP.H.IDX : Rat) / track6.rate ∧
    ∃ t, exec (.wake 0) sP = .next t :=
  ⟨rfl, rfl, by decide +kernel, by decide +kernel, by decide +kernel,
    next_of (by decide +kernel)⟩

/-- Frame 3 is sent and frame 4 is not. -/
theorem witness_FramesAreReleasedByTickTime :
    sP.H.PLAYING = true ∧ sP.H.TRACK = some track6 ∧ 0 < track6.rate ∧
    sP.H.IDX ≤ track6.frames.length ∧ sP.H.NEXT = 0 + (sP.H.IDX : Rat) / track6.rate ∧
    (∃ t, exec (.wake 0) sP = .next t) ∧ 3 < track6.frames.length ∧
    4 < track6.frames.length ∧
    (nextOf (exec (.wake 0) sP)).map (·.H.IDX) = some 4 :=
  ⟨rfl, rfl, by decide +kernel, by decide +kernel, by decide +kernel,
    next_of (by decide +kernel), by decide +kernel, by decide +kernel, by decide +kernel⟩

/-- A session on the clock that shows real time: a USERCTL, a PLAY and two WAKEs. -/
def clock : AudioClock := ⟨id, fun _ _ h => h⟩

/-- Its calls, the last two at one instant. -/
def calls : List Call :=
  [⟨0, .userctl ⟨false, false, true, false⟩ ⟨1, 1, 1, 1⟩⟩, ⟨9, .play 9⟩, ⟨10, .wake 10⟩,
    ⟨10, .wake 10⟩]

/-- PLAY's `now` is a reading of the clock too: a PLAY at 9 before a WAKE at 1 is on no
clock. -/
theorem test_clock_excludes_play_after_wake (clock : AudioClock) (a b : Rat) :
    ¬ OnClock clock [⟨a, .play 9⟩, ⟨b, .wake 1⟩] := fun h => by
  have hab : a ≤ b := (List.pairwise_cons.mp h.ordered).1 b (by simp)
  have h9 := h.reads ⟨a, .play 9⟩ (by simp) 9 rfl
  have h1 := h.reads ⟨b, .wake 1⟩ (by simp) 1 rfl
  have := clock.mono a b hab
  simp only at h9 h1
  linarith

theorem witness_ForwardClockIsNeverRefused :
    timeOk sP.S 0 ∧ (∃ t, exec (.wake 0) sP = .next t) ∧
    OnClock clock calls ∧ Inv sP ∧ ∀ c ∈ calls, timeOk sP.S (clock.reading c.time) := by
  refine ⟨timeOk_s0 0, next_of (by decide +kernel), ⟨by decide +kernel, ?_⟩, inv_sP,
    fun _ _ => timeOk_s0 _⟩
  intro c hc now h
  simp only [calls, List.mem_cons, List.not_mem_nil, or_false] at hc
  rcases hc with rfl | rfl | rfl | rfl <;> cases h <;> rfl

/-- Wake-ups a second apart are fair; from Playing, and from a PLAY at the first wake-up. -/
theorem witness_PlayedTrackCompletes :
    FairWakes (fun j => (j : Rat)) ∧
    (Inv sP ∧ sP.H.PLAYING = true ∧ sP.H.TRACK = some track6 ∧ sP.H.IDX = 0 ∧
      timeOk sP.S ((0 : Nat) : Rat)) ∧
    Inv (s0.installTrack track6) ∧ (0 : Rat) ≤ ((0 : Nat) : Rat) ∧
    (s0.installTrack track6).H.PLAYING = false ∧
    (s0.installTrack track6).H.TRACK = some track6 ∧ track6.frames ≠ [] ∧
    timeOk (s0.installTrack track6).S 0 :=
  ⟨⟨fun _ _ h => by exact_mod_cast h, fun t => exists_nat_gt t⟩,
    ⟨inv_sP, rfl, rfl, rfl, timeOk_s0 _⟩,
    installTrack_inv inv_s0 (by decide +kernel), by simp, rfl, rfl, by decide +kernel,
    timeOk_s0 0⟩

/-! ## Witnesses: the whole machine -/

theorem witness_PowerOnMeetsTheInvariant :
    Config.test.Valid ∧ ∀ X, 0 ≤ s0.S.OSC.get X ∧ s0.S.OSC.get X < 1 :=
  ⟨inv_s0.params, inv_s0.block.osc⟩

theorem witness_EveryStepKeepsTheInvariant :
    Inv (sP.withPending [encode (.wake 0)]) ∧
    ∃ t, step (sP.withPending [encode (.wake 0)]) = .next t :=
  ⟨⟨inv_sP.params, inv_sP.block, inv_sP.host⟩, next_of (by decide +kernel)⟩

theorem witness_NoStepStopsTheMachine : Inv s1 := inv_s1

theorem witness_RefusalMarkIsNeverCleared :
    ((s1.refuse .BadRate).withPending [encode .reset]).S.REFUSED = true ∧
    ∃ t, step ((s1.refuse .BadRate).withPending [encode .reset]) = .next t :=
  ⟨rfl, next_of (by decide +kernel)⟩

theorem witness_HistoryIsOnlyAppendedTo :
    ∃ t, step (s1.withPending [encode (.frame imgE4.toList 1)]) = .next t :=
  next_of (by decide +kernel)

/-- A command for each clause. -/
theorem witness_EachPartHasItsWriters :
    (∃ t, exec .stop sP = .next t ∧ Instr.stop.opcode ≠ .USERCTL ∧
      Instr.stop.opcode ≠ .FRAME ∧ Instr.stop.opcode ≠ .RESET ∧ Instr.stop.opcode ≠ .WAKE) ∧
    ∃ t, exec .reset sP = .next t ∧ Instr.reset.opcode = .RESET :=
  ⟨⟨_, rfl, by decide, by decide, by decide, by decide⟩, _, rfl, rfl⟩

/-- The last index, and the first that does not exist. -/
theorem witness_ImageHasFourteenIndexes : 13 < 14 ∧ 14 ≤ 14 := by decide

end Sys2Proof.Tests
end

section
/-!
What a command and a step can do, one inversion lemma each, and from them the obligations on
the state as a whole (spec/10_state.md): the invariant, the refusal mark, the history, and
which command writes which part.
-/

namespace Sys2Proof.Machine

/-! ## What a command can do -/

/-- FRAME is refused for its length, or is `block FRAME` of an image (R62, R105). -/
theorem exec_frame_cases {F : List Byte} {now : Rat} {s t : State}
    (h : exec (.frame F now) s = .next t) :
    t = s.refuse .FrameLength ∨ ∃ img, t = s.issueFrame img now := by
  simp only [exec, execFrame] at h
  split at h <;> cases h
  · exact .inl rfl
  · exact .inr ⟨_, rfl⟩

theorem exec_userctl_eq {mute : Paths Bool} {vol : Paths Rat} {s t : State}
    (h : exec (.userctl mute vol) s = .next t) :
    t = s.withS (s.S.writeUserControls s.params mute vol) := by
  cases h; rfl

theorem exec_reset_eq {s t : State} (h : exec .reset s = .next t) : t = s.blockReset := by
  cases h; rfl

/-- LOAD reports its failure, is refused for its rate, or installs the Track (R195). -/
theorem exec_load_cases {result : LoadResult} {s t : State}
    (h : exec (.load result) s = .next t) :
    (∃ kind, t = s.report (.loadFailed kind)) ∨ t = s.refuse .BadRate ∨
      ∃ track, 0 < track.rate ∧ t = s.installTrack track := by
  cases result with
  | fail kind => cases h; exact .inl ⟨kind, rfl⟩
  | ok track =>
    simp only [exec, execLoad] at h
    split at h <;> cases h
    · exact .inr (.inl rfl)
    · exact .inr (.inr ⟨track, not_le.mp ‹_›, rfl⟩)

/-- PLAY changes nothing, or, while Stopped, starts a Track that has a frame (R198). -/
theorem exec_play_cases {now : Rat} {s t : State} (h : exec (.play now) s = .next t) :
    t = s ∨ s.H.PLAYING = false ∧ s.H.hasFrames = true ∧
      t = s.withH { s.H with PLAYING := true, IDX := 0, NEXT := now } := by
  simp only [exec, execPlay] at h
  split at h
  · cases h; exact .inl rfl
  · split at h <;> cases h
    · exact .inr ⟨Bool.eq_false_iff.mpr ‹_›, ‹_›, rfl⟩
    · exact .inl rfl

theorem exec_stop_eq {s t : State} (h : exec .stop s = .next t) : t = s.stopPlayback := by
  cases h; rfl

/-- WAKE changes nothing, or, while Playing, sends the first `k` of the frames left and tests
for the end of the Track (R200). -/
theorem exec_wake_cases {now : Rat} {s t : State} (h : exec (.wake now) s = .next t) :
    t = s ∨ ∃ (track : Track) (k : Nat),
      s.H.PLAYING = true ∧ s.H.TRACK = some track ∧
      k ≤ (track.frames.drop s.H.IDX).length ∧
      t = ((((track.frames.drop s.H.IDX).take k).foldl (fun s F => s.issueFrame F now) s).withH
        { s.H with
          IDX := s.H.IDX + k, NEXT := s.H.NEXT + (k : Rat) / track.rate }).endOfTrack
        track.frames.length := by
  cases hp : s.H.PLAYING with
  | false =>
    simp only [exec, execWake, hp] at h
    cases h
    exact .inl rfl
  | true =>
    cases ht : s.H.TRACK with
    | none => simp [exec, execWake, hp, ht] at h
    | some track =>
      obtain ⟨k, hk, heq, -, -⟩ := exec_wake_playing now hp ht
      rw [heq] at h
      cases h
      exact .inr ⟨track, k, rfl, rfl, hk, rfl⟩

/-- A step waits, executes one command, or refuses a packet that spells none (R66, R101,
R102). -/
theorem step_cases {s t : State} (h : step s = .next t) :
    t = s ∨ (∃ i ps, exec i (s.withPending ps) = .next t) ∨
      ∃ ps r, t = (s.withPending ps).refuse r := by
  unfold step at h
  split at h
  · cases h; exact .inl rfl
  · split at h
    · exact .inr (.inl ⟨_, _, h⟩)
    · cases h; exact .inr (.inr ⟨_, _, rfl⟩)

/-! ## Properties that every operation keeps -/

/-- Each of the operations that commands are made of keeps `P`, the host sequencer's part
written freely. -/
structure KeptByOperations (P : State → Prop) : Prop where
  withPending : ∀ s ps, P s → P (s.withPending ps)
  withH : ∀ s H, P s → P (s.withH H)
  report : ∀ s r, P s → P (s.report r)
  refuse : ∀ s r, P s → P (s.refuse r)
  frameEffect : ∀ (s : State) F now, P s → P (s.withS (frameEffect s.params F now s.S))
  writeUserControls : ∀ (s : State) mute vol, P s →
    P (s.withS (s.S.writeUserControls s.params mute vol))
  blockReset : ∀ s, P s → P s.blockReset

namespace KeptByOperations

variable {P : State → Prop}

theorem issueFrame (hP : KeptByOperations P) (F : Image) (now : Rat) (s : State) (h : P s) :
    P (s.issueFrame F now) := by
  rcases issueFrame_cases s F now with ⟨-, h'⟩ | ⟨-, h'⟩ <;> rw [h']
  · exact hP.refuse s _ h
  · exact hP.frameEffect s F now h

theorem issueFrames (hP : KeptByOperations P) (now : Rat) (Fs : List Image) :
    ∀ s, P s → P (Fs.foldl (fun s F => s.issueFrame F now) s) := by
  induction Fs with
  | nil => exact fun _ h => h
  | cons F Fs ih => exact fun s h => ih _ (hP.issueFrame F now s h)

theorem stopPlayback (hP : KeptByOperations P) (s : State) (h : P s) : P s.stopPlayback := by
  rcases stopPlayback_cases s with ⟨-, h'⟩ | ⟨-, h'⟩ <;> rw [h']
  · exact h
  · exact hP.blockReset _ (hP.withH s _ h)

theorem endOfTrack (hP : KeptByOperations P) (s : State) (n : Nat) (h : P s) :
    P (s.endOfTrack n) := by
  rcases endOfTrack_cases s n with ⟨-, h'⟩ | ⟨-, h'⟩ <;> rw [h']
  · exact hP.blockReset _ (hP.withH s _ h)
  · exact h

/-- What every operation keeps, every command keeps. -/
theorem exec (hP : KeptByOperations P) {i : Instr} {s t : State}
    (h : Machine.exec i s = .next t) (hs : P s) : P t := by
  cases i with
  | frame F now =>
    rcases exec_frame_cases h with rfl | ⟨img, rfl⟩
    · exact hP.refuse s _ hs
    · exact hP.issueFrame img now s hs
  | userctl mute vol => exact exec_userctl_eq h ▸ hP.writeUserControls s mute vol hs
  | reset => exact exec_reset_eq h ▸ hP.blockReset s hs
  | load result =>
    rcases exec_load_cases h with ⟨kind, rfl⟩ | rfl | ⟨track, -, rfl⟩
    · exact hP.report s _ hs
    · exact hP.refuse s _ hs
    · exact hP.withH _ _ (hP.stopPlayback s hs)
  | play now =>
    rcases exec_play_cases h with rfl | ⟨-, -, rfl⟩
    · exact hs
    · exact hP.withH s _ hs
  | stop => exact exec_stop_eq h ▸ hP.stopPlayback s hs
  | wake now =>
    rcases exec_wake_cases h with rfl | ⟨track, k, -, -, -, rfl⟩
    · exact hs
    · exact hP.endOfTrack _ _ (hP.withH _ _ (hP.issueFrames now _ s hs))

/-- What every operation keeps, every step keeps. -/
theorem step (hP : KeptByOperations P) {s t : State} (h : Machine.step s = .next t)
    (hs : P s) : P t := by
  rcases step_cases h with rfl | ⟨i, ps, h'⟩ | ⟨ps, r, rfl⟩
  · exact hs
  · exact hP.exec h' (hP.withPending s ps hs)
  · exact hP.refuse _ r (hP.withPending s ps hs)

end KeptByOperations

/-- A refusal sets the mark and no operation clears it (R58). -/
theorem keptByOperations_refused : KeptByOperations fun u => u.S.REFUSED = true where
  withPending _ _ h := h
  withH _ _ h := h
  report _ _ h := h
  refuse _ _ _ := rfl
  frameEffect _ _ _ h := h
  writeUserControls _ _ _ h := h
  blockReset _ h := h

/-- `u`'s history continues `s`'s, under the same parameters and start phases. -/
def ContinuesHistory (s u : State) : Prop :=
  (∃ l, u.S.HIST = s.S.HIST ++ l) ∧ u.params = s.params ∧ u.S.OSC = s.S.OSC

theorem ContinuesHistory.refl (s : State) : ContinuesHistory s s := ⟨⟨[], by simp⟩, rfl, rfl⟩

/-- Only FRAME's effect touches the history, and it appends an entry (R50, R159). -/
theorem keptByOperations_continuesHistory (s : State) :
    KeptByOperations (ContinuesHistory s) where
  withPending _ _ h := h
  withH _ _ h := h
  report _ _ h := h
  refuse _ _ h := h
  frameEffect u F now h := by
    obtain ⟨⟨l, hl⟩, hparams, hosc⟩ := h
    refine ⟨⟨l ++ [⟨now, appliedRegs (frameEffect u.params F now u.S).TGT⟩], ?_⟩, hparams, hosc⟩
    rw [State.withS_S, frameEffect_HIST, hl, List.append_assoc]
  writeUserControls _ _ _ h := h
  blockReset _ h := h

/-- Settles O56: the mark is kept by every operation, hence by every step. -/
theorem refusalMarkIsNeverCleared : Obligations.RefusalMarkIsNeverCleared :=
  fun _ _ h hs => keptByOperations_refused.step h hs

/-- Settles O57: every operation continues the history the step found. -/
theorem historyIsOnlyAppendedTo : Obligations.HistoryIsOnlyAppendedTo :=
  fun s _ h => (keptByOperations_continuesHistory s).step h (.refl s)

/-! ## The invariant -/

theorem blockReset_inv {s : State} (hs : Inv s) : Inv s.blockReset :=
  ⟨hs.params, restoreDefaults_inv hs.params hs.block, hs.host⟩

/-- A host sequencer that is Stopped needs no frame left to send (R206). -/
theorem Sequencer.Inv.stopped {H : Sequencer} (h : H.Inv) :
    Sequencer.Inv { H with PLAYING := false } :=
  ⟨h.rate, by simp⟩

/-- PLAY starts at frame 0 of a Track that has one (R198). -/
theorem Sequencer.Inv.started {H : Sequencer} (h : H.Inv) (hf : H.hasFrames = true)
    (now : Rat) : Sequencer.Inv { H with PLAYING := true, IDX := 0, NEXT := now } := by
  obtain ⟨track, ht, hne⟩ := hasFrames_iff.mp hf
  exact ⟨h.rate, fun _ => ⟨track, ht, List.length_pos_of_ne_nil hne⟩⟩

/-- The end-of-track test turns "no frame sent twice" into the invariant: all frames sent
means Stopped, else one is left (R203, R206). -/
theorem endOfTrack_inv {s : State} {track : Track} (hparams : s.params.Valid)
    (hblock : s.S.Inv s.params) (hrate : 0 < track.rate) (ht : s.H.TRACK = some track)
    (hidx : s.H.IDX ≤ track.frames.length) : Inv (s.endOfTrack track.frames.length) := by
  have hr : ∀ u, s.H.TRACK = some u → 0 < u.rate := fun u hu => by
    rw [ht, Option.some.injEq] at hu
    exact hu ▸ hrate
  rcases endOfTrack_cases s track.frames.length with ⟨-, h⟩ | ⟨hne, h⟩ <;> rw [h]
  · exact blockReset_inv ⟨hparams, hblock, hr, by simp⟩
  · exact ⟨hparams, hblock, hr, fun _ => ⟨track, ht, lt_of_le_of_ne hidx hne⟩⟩

/-- Every command keeps the invariant. -/
theorem exec_inv {i : Instr} {s t : State} (h : exec i s = .next t) (hs : Inv s) : Inv t := by
  cases i with
  | frame F now =>
    rcases exec_frame_cases h with rfl | ⟨img, rfl⟩
    · exact refuse_inv hs _
    · exact issueFrame_inv hs img now
  | userctl mute vol =>
    obtain rfl := exec_userctl_eq h
    exact ⟨hs.params, writeUserControls_inv hs.params hs.block mute vol, hs.host⟩
  | reset => exact exec_reset_eq h ▸ blockReset_inv hs
  | load result =>
    rcases exec_load_cases h with ⟨kind, rfl⟩ | rfl | ⟨track, hrate, rfl⟩
    · exact ⟨hs.params, hs.block, hs.host⟩
    · exact refuse_inv hs _
    · exact installTrack_inv hs hrate
  | play now =>
    rcases exec_play_cases h with rfl | ⟨-, hf, rfl⟩
    · exact hs
    · exact ⟨hs.params, hs.block, hs.host.started hf now⟩
  | stop => exact exec_stop_eq h ▸ stopPlayback_inv hs
  | wake now =>
    rcases exec_wake_cases h with rfl | ⟨track, k, hp, ht, hk, rfl⟩
    · exact hs
    · have hsent := issueFrames_inv (now := now) ((track.frames.drop s.H.IDX).take k) hs
      have hleft : s.H.IDX < track.frames.length := by
        obtain ⟨u, hu, hlt⟩ := hs.host.playing hp
        rw [ht, Option.some.injEq] at hu
        exact hu ▸ hlt
      refine endOfTrack_inv hsent.params hsent.block (hs.host.rate track ht) ht ?_
      rw [List.length_drop] at hk
      show s.H.IDX + k ≤ track.frames.length
      omega

/-- Settles O54, by what a step can do and `exec_inv`. -/
theorem everyStepKeepsTheInvariant : Obligations.EveryStepKeepsTheInvariant := by
  intro s t hs h
  have hpend : ∀ ps, Inv (s.withPending ps) := fun _ => ⟨hs.params, hs.block, hs.host⟩
  rcases step_cases h with rfl | ⟨i, ps, h'⟩ | ⟨ps, r, rfl⟩
  · exact hs
  · exact exec_inv h' (hpend ps)
  · exact refuse_inv (hpend ps) r

/-- The block at power-on: silent, in range, nothing applied yet. -/
theorem Block.powerOn_inv {p : Params} {osc : Voices Rat} (hp : p.Valid)
    (hosc : ∀ X, 0 ≤ osc.get X ∧ osc.get X < 1) : (Block.powerOn p osc).Inv p where
  uvol V := by simpa [Block.powerOn] using hp.userVolMax
  env := Envelope.initial_inRange hp
  tgt := silent_inRange hp
  tgtOff := silent_offIsSilent p
  out := silent_inRange hp
  outOff := silent_offIsSilent p
  hist := by simp [Block.powerOn]
  sorted := List.Pairwise.nil
  time := rfl
  last := rfl
  armed h := absurd rfl h
  osc := hosc

theorem Sequencer.initial_inv : Sequencer.initial.Inv :=
  ⟨by simp [Sequencer.initial], by simp [Sequencer.initial]⟩

theorem State.powerOn_inv {p : Params} {osc : Voices Rat} (hp : p.Valid)
    (hosc : ∀ X, 0 ≤ osc.get X ∧ osc.get X < 1) : Inv (State.powerOn p osc) :=
  ⟨hp, Block.powerOn_inv hp hosc, Sequencer.initial_inv⟩

/-- Settles O53: reset is a power-on with the default parameters and fractional phases. -/
theorem powerOnMeetsTheInvariant : Obligations.PowerOnMeetsTheInvariant := by
  refine ⟨fun _ _ => State.powerOn_inv, ?_⟩
  refine State.powerOn_inv (Config.defaults_valid Config.openClock_pos) fun X => ?_
  rw [Voices.get_ofFn]
  exact ⟨frac_nonneg _, frac_lt_one _⟩

/-! ## The writers of each part -/

/-- From `s` to `t` the host sequencer entered Stopped, and the block `B` was reset (R199,
R203). -/
def EntersStopped (s t : State) (B : Block) : Prop :=
  s.H.PLAYING = true ∧ t.H.PLAYING = false ∧ t.S = B.restoreDefaults s.params

/-- RESET writes the default user controls (R184). -/
theorem restoreDefaults_userControls (p : Params) (B : Block) (V : Path) :
    (B.restoreDefaults p).MUTE.get V = false ∧ (B.restoreDefaults p).UVOL.get V = 1 := by
  simp

theorem EntersStopped.userControls {s t : State} {B : Block} (h : EntersStopped s t B)
    (V : Path) : t.S.MUTE.get V = false ∧ t.S.UVOL.get V = 1 := by
  obtain ⟨-, -, hS⟩ := h
  exact hS ▸ restoreDefaults_userControls s.params B V

theorem stopPlayback_block (s : State) :
    s.stopPlayback.S = s.S ∨ EntersStopped s s.stopPlayback s.S := by
  rcases stopPlayback_cases s with ⟨-, h⟩ | ⟨hp, h⟩ <;> rw [h]
  · exact .inl rfl
  · exact .inr ⟨hp, rfl, rfl⟩

/-- LOAD, PLAY and STOP write at most the refusal mark of the block, or enter Stopped. -/
theorem exec_load_play_stop_block {i : Instr} {s t : State} (h : exec i s = .next t)
    (hi : i.opcode = .LOAD ∨ i.opcode = .PLAY ∨ i.opcode = .STOP) :
    (∃ mark, t.S = { s.S with REFUSED := mark }) ∨ EntersStopped s t s.S := by
  cases i with
  | load result =>
    rcases exec_load_cases h with ⟨kind, rfl⟩ | rfl | ⟨track, -, rfl⟩
    · exact .inl ⟨_, rfl⟩
    · exact .inl ⟨true, rfl⟩
    · rcases stopPlayback_block s with hS | ⟨hp, hn, hS⟩
      · exact .inl ⟨_, hS⟩
      · exact .inr ⟨hp, hn, hS⟩
  | play now =>
    rcases exec_play_cases h with rfl | ⟨-, -, rfl⟩ <;> exact .inl ⟨_, rfl⟩
  | stop =>
    obtain rfl := exec_stop_eq h
    exact (stopPlayback_block s).imp_left fun hS => ⟨_, hS⟩
  | frame | userctl | reset | wake => simp [Instr.opcode] at hi

/-- WAKE leaves the user controls, or enters Stopped at the end of the Track (R203). -/
theorem exec_wake_userControls {now : Rat} {s t : State} (h : exec (.wake now) s = .next t) :
    (t.S.MUTE = s.S.MUTE ∧ t.S.UVOL = s.S.UVOL) ∨ ∃ B, EntersStopped s t B := by
  rcases exec_wake_cases h with rfl | ⟨track, k, hp, -, -, rfl⟩
  · exact .inl ⟨rfl, rfl⟩
  · rcases endOfTrack_cases _ track.frames.length with ⟨-, he⟩ | ⟨-, he⟩ <;> rw [he]
    · refine .inr ⟨_, hp, rfl, congrArg (Block.restoreDefaults · _) ?_⟩
      exact (issueFrames_H now _ s).2
    · exact .inl (issueFrames_userControls now _ s)

/-- USERCTL apart, a command leaves the user controls, or is RESET, or entered Stopped with
the RESET that the host then issues (R30, R31). -/
theorem exec_userControls {i : Instr} {s t : State} (h : exec i s = .next t)
    (hi : i.opcode ≠ .USERCTL) :
    (t.S.MUTE = s.S.MUTE ∧ t.S.UVOL = s.S.UVOL) ∨ (i.opcode = .RESET ∧ t = s.blockReset) ∨
      ∃ B, EntersStopped s t B := by
  have hhost (hop : i.opcode = .LOAD ∨ i.opcode = .PLAY ∨ i.opcode = .STOP) :
      (t.S.MUTE = s.S.MUTE ∧ t.S.UVOL = s.S.UVOL) ∨ ∃ B, EntersStopped s t B := by
    rcases exec_load_play_stop_block h hop with ⟨mark, hS⟩ | hS
    · exact .inl (hS ▸ ⟨rfl, rfl⟩)
    · exact .inr ⟨_, hS⟩
  cases i with
  | frame F now =>
    rcases exec_frame_cases h with rfl | ⟨img, rfl⟩
    · exact .inl ⟨rfl, rfl⟩
    · exact .inl ⟨issueFrame_MUTE s img now, issueFrame_UVOL s img now⟩
  | userctl mute vol => exact absurd rfl hi
  | reset => exact .inr (.inl ⟨rfl, exec_reset_eq h⟩)
  | load result => exact (hhost (.inl rfl)).imp_right .inr
  | play now => exact (hhost (.inr (.inl rfl))).imp_right .inr
  | stop => exact (hhost (.inr (.inr rfl))).imp_right .inr
  | wake now => exact (exec_wake_userControls h).imp_right .inr

/-- FRAME, RESET and WAKE apart, a command leaves the envelope and the targets, or enters
Stopped (R40, R47). -/
theorem exec_env_targets {i : Instr} {s t : State} (h : exec i s = .next t)
    (hframe : i.opcode ≠ .FRAME) (hreset : i.opcode ≠ .RESET) (hwake : i.opcode ≠ .WAKE) :
    (t.S.ENV = s.S.ENV ∧ t.S.TGT = s.S.TGT) ∨ EntersStopped s t s.S := by
  have hhost (hop : i.opcode = .LOAD ∨ i.opcode = .PLAY ∨ i.opcode = .STOP) :
      (t.S.ENV = s.S.ENV ∧ t.S.TGT = s.S.TGT) ∨ EntersStopped s t s.S :=
    (exec_load_play_stop_block h hop).imp_left fun ⟨_, hS⟩ => hS ▸ ⟨rfl, rfl⟩
  cases i with
  | frame F now => exact absurd rfl hframe
  | userctl mute vol => exact .inl (exec_userctl_eq h ▸ ⟨rfl, rfl⟩)
  | reset => exact absurd rfl hreset
  | load result => exact hhost (.inl rfl)
  | play now => exact hhost (.inr (.inl rfl))
  | stop => exact hhost (.inr (.inr rfl))
  | wake now => exact absurd rfl hwake

/-- The block's own commands leave the host sequencer (R124, R179, R184). -/
theorem exec_blockCommand_H {i : Instr} {s t : State} (h : exec i s = .next t)
    (hi : i.opcode = .FRAME ∨ i.opcode = .USERCTL ∨ i.opcode = .RESET) : t.H = s.H := by
  cases i with
  | frame F now =>
    rcases exec_frame_cases h with rfl | ⟨img, rfl⟩
    · rfl
    · exact issueFrame_H s img now
  | userctl mute vol => exact exec_userctl_eq h ▸ rfl
  | reset => exact exec_reset_eq h ▸ rfl
  | load | play | stop | wake => simp [Instr.opcode] at hi

/-- Settles O58, a clause each from what a command can do to the user controls, to the
envelope and the targets, and to the host sequencer. -/
theorem eachPartHasItsWriters : Obligations.EachPartHasItsWriters := by
  intro s t i h
  refine ⟨fun hi => ?_, fun hframe hreset hwake => ?_, exec_blockCommand_H h⟩
  · rcases exec_userControls h hi with hsame | ⟨hop, rfl⟩ | ⟨B, hB⟩
    · exact .inl hsame
    · exact .inr ⟨.inl hop, restoreDefaults_userControls _ _⟩
    · obtain ⟨hp, hn, -⟩ := id hB
      exact .inr ⟨.inr ⟨hp, hn⟩, hB.userControls⟩
  · rcases exec_env_targets h hframe hreset hwake with hsame | ⟨hp, hn, hS⟩
    · exact .inl hsame
    · exact .inr ⟨hp, hn, congrArg Block.ENV hS, congrArg Block.TGT hS⟩

end Sys2Proof.Machine
end

section
/-!
The obligations on the register image and the command stream (spec/20_memory.md): which indexes
the image has, what a step runs, when FRAME is refused, and that a repeated FRAME settles.
-/

namespace Sys2Proof.Machine

/-! ## The register image -/

theorem memRead_eq_none_iff {F : Image} {i : Nat} : memRead F i = none ↔ 14 ≤ i :=
  Vector.getElem?_eq_none_iff

theorem memRead_of_lt (F : Image) {i : Nat} (h : i < 14) : memRead F i = some F[i] :=
  Vector.getElem?_eq_getElem h

/-- Settles O59, by the two laws of reading the image. -/
theorem imageHasFourteenIndexes : Obligations.ImageHasFourteenIndexes :=
  fun F _ => ⟨memRead_eq_none_iff, memRead_of_lt F⟩

/-! ## The step on a packet that decodes -/

/-- A step executes the command its first pending packet spells (R66, R93). -/
theorem step_of_decode_ok {s : State} {p : Packet} {ps : List Packet} {i : Instr}
    {more : List Byte} (hpending : s.port.pending = p :: ps) (hdecode : decode p = .ok (i, more)) :
    step s = exec i (s.withPending (leftoverPackets p.operands more ++ ps)) := by
  simp only [step, hpending, hdecode]

/-- Settles O4, by the equation of `step` on a packet that decodes. -/
theorem stepRunsTheDecodedCommand : Obligations.StepRunsTheDecodedCommand :=
  fun _ _ _ _ _ => step_of_decode_ok

/-! ## The refusals of FRAME -/

/-- Being refused changes the mark and the reports, and nothing else (R215, R220). -/
theorem refuse_refusedWith (s : State) (r : RefusalReason) : RefusedWith s (s.refuse r) r :=
  ⟨rfl, rfl, rfl, rfl⟩

/-- FRAME of an image of another length is refused, whatever its `now` (R62). -/
theorem exec_frame_of_length_ne {F : List Byte} (now : Rat) (s : State) (h : F.length ≠ 14) :
    exec (.frame F now) s = .next (s.refuse .FrameLength) := by
  simp only [exec, execFrame, imageOf?_eq_none h]

/-- FRAME of a 14-byte image earlier than the last apply is refused (R160). -/
theorem exec_frame_of_earlier {F : List Byte} {now t0 : Rat} {s : State} (hlen : F.length = 14)
    (hlast : s.S.OUT.time = some t0) (hnow : now < t0) :
    exec (.frame F now) s = .next (s.refuse .TimeReversal) := by
  obtain ⟨img, -, rfl⟩ := imageOf?_eq_some hlen
  have hearlier : earlierThanLastApply s.S now = true := by
    simpa [earlierThanLastApply, hlast] using hnow
  rw [exec_frame_toList, State.issueFrame, if_pos hearlier]

/-- Settles O18, a refusal each from FRAME's equation for it. -/
theorem frameRefusals : Obligations.FrameRefusals := by
  intro s F now
  refine ⟨fun hlen => ?_, fun hlen t0 hlast hnow => ?_⟩
  · exact ⟨_, exec_frame_of_length_ne now s hlen, refuse_refusedWith s _, rfl⟩
  · exact ⟨_, exec_frame_of_earlier hlen hlast hnow, refuse_refusedWith s _, rfl⟩

/-! ## A repeated FRAME -/

/-- Advancing a second time at the same `now` changes nothing: no time has passed, and the
phase is wrapped already, so no further cycle is done (R134 to R137). -/
theorem envAdvance_envAdvance (E : Envelope) (shape : BitVec 4) (now : Rat) :
    envAdvance (envAdvance E shape now) shape now = envAdvance E shape now := by
  have hacc : accumulatedPhase (envAdvance E shape now) now = frac (accumulatedPhase E now) := by
    simp [accumulatedPhase, envAdvance]
  have hfrac : frac (frac (accumulatedPhase E now)) = frac (accumulatedPhase E now) :=
    frac_of_mem (frac_nonneg _) (frac_lt_one _)
  have hdone : cycleDoneAfter (envAdvance E shape now) (frac (accumulatedPhase E now)) =
      cycleDoneAfter E (accumulatedPhase E now) := by
    have hlt : ¬ 1 ≤ frac (accumulatedPhase E now) := not_le.mpr (frac_lt_one _)
    simp [cycleDoneAfter, envAdvance, hlt]
  rw [envAdvance, hacc, hfrac, hdone]
  rfl

/-- The retrigger test reads only the stored shape and period, which an advance keeps. -/
theorem retriggers_envAdvance (p : Params) (E : Envelope) (shape' shape : BitVec 4)
    (T now : Rat) : retriggers p (envAdvance E shape' now) shape T = retriggers p E shape T := rfl

/-- An update that advanced is not changed by the same update at the same `now`. -/
theorem ENV_UPDATE_ENV_UPDATE_of_running {p : Params} {E : Envelope} {shape : BitVec 4}
    {T now : Rat} (h : (ENV_UPDATE p E shape T now).mode = .Running) :
    ENV_UPDATE p (ENV_UPDATE p E shape T now) shape T now = ENV_UPDATE p E shape T now := by
  rcases ENV_UPDATE_cases p E shape T now with ⟨-, hE⟩ | ⟨hnot, -, hE⟩ <;> rw [hE] at h ⊢
  · cases h
  · rw [ENV_UPDATE, retriggers_envAdvance, hnot, if_neg Bool.false_ne_true, envAdvance_envAdvance]

/-- The targets depend on the block through its user controls only, which FRAME keeps. -/
theorem targets_frameEffect (p : Params) (f : Fields) (l : Rat) (F : Image) (now : Rat)
    (S : Block) : targets p f l (frameEffect p F now S) = targets p f l S := rfl

/-- FRAME's outputs are its applied targets, stamped with its `now` (R159). -/
theorem frameEffect_OUT (p : Params) (F : Image) (now : Rat) (S : Block) :
    (frameEffect p F now S).OUT =
      { appliedRegs (frameEffect p F now S).TGT with time := some now } := rfl

/-- The targets of a FRAME that advanced the envelope are those of the same FRAME after it. -/
theorem frameEffect_frameEffect_TGT {p : Params} {F : Image} {now : Rat} {S : Block}
    (h : (frameEffect p F now S).ENV.mode = .Running) :
    (frameEffect p F now (frameEffect p F now S)).TGT = (frameEffect p F now S).TGT := by
  rw [frameEffect_ENV] at h
  rw [frameEffect_TGT, targets_frameEffect, frameEffect_ENV, ENV_UPDATE_ENV_UPDATE_of_running h,
    ← frameEffect_TGT]

/-- Settles O20: the second FRAME is not refused, and its envelope update changes nothing. -/
theorem repeatedFrameSettles : Obligations.RepeatedFrameSettles := by
  intro s t F now _ htime h hrunning
  rw [exec_frame_next htime] at h
  cases h
  have hTGT := frameEffect_frameEffect_TGT hrunning
  have hagain : timeOk (frameEffect s.params F now s.S) now :=
    earlierThanLastApply_eq_false.mp (frameEffect_not_earlier s.params F now s.S)
  refine ⟨_, exec_frame_next hagain, hTGT, ?_, ?_⟩
  · show (frameEffect s.params F now (frameEffect s.params F now s.S)).OUT =
      (frameEffect s.params F now s.S).OUT
    rw [frameEffect_OUT, hTGT, ← frameEffect_OUT]
  · exact List.length_append

end Sys2Proof.Machine
end

section
/-!
The obligations on the encodings (spec/30_encoding.md): packets decode to the commands they were
encoded from, packets that spell none are refused, the fields of a register image are assembled
from the bits the decoder reads and no others, and the text forms read as their commands.
-/

namespace Sys2Proof.Machine

/-! ## What a packet decodes to, an equation per row of the opcode table (R94) -/

@[simp] theorem decode_frame (payload : List Byte) (o : TypedOperands) :
    decode ⟨Opcode.FRAME.byte, payload, o⟩ =
      .ok (.frame (payload.take 14) o.now, payload.drop 14) := rfl

@[simp] theorem decode_userctl (M : Byte) (more : List Byte) (o : TypedOperands) :
    decode ⟨Opcode.USERCTL.byte, M :: more, o⟩ = .ok (.userctl (muteOfMask M) o.vol, more) := rfl

@[simp] theorem decode_userctl_short (o : TypedOperands) :
    decode ⟨Opcode.USERCTL.byte, [], o⟩ = .error .PayloadShort := rfl

@[simp] theorem decode_reset (more : List Byte) (o : TypedOperands) :
    decode ⟨Opcode.RESET.byte, more, o⟩ = .ok (.reset, more) := rfl

@[simp] theorem decode_load (more : List Byte) (o : TypedOperands) :
    decode ⟨Opcode.LOAD.byte, more, o⟩ = .ok (.load o.result, more) := rfl

@[simp] theorem decode_play (more : List Byte) (o : TypedOperands) :
    decode ⟨Opcode.PLAY.byte, more, o⟩ = .ok (.play o.now, more) := rfl

@[simp] theorem decode_stop (more : List Byte) (o : TypedOperands) :
    decode ⟨Opcode.STOP.byte, more, o⟩ = .ok (.stop, more) := rfl

@[simp] theorem decode_wake (more : List Byte) (o : TypedOperands) :
    decode ⟨Opcode.WAKE.byte, more, o⟩ = .ok (.wake o.now, more) := rfl

theorem decode_of_isReserved {p : Packet} (h : isReserved p.opcode) :
    decode p = .error .ReservedOpcode := by
  simp only [decode, Opcode.ofByte?_eq_none.mpr h]

/-- Every byte is reserved or names a command (R94, R102). -/
theorem isReserved_or_eq_byte (b : Byte) : isReserved b ∨ ∃ op : Opcode, b = op.byte := by
  cases h : Opcode.ofByte? b with
  | none => exact .inl (Opcode.ofByte?_eq_none.mp h)
  | some op => exact .inr ⟨op, Opcode.ofByte?_eq_some.mp h⟩

/-- A packet spells no command because its opcode byte is reserved, or because it is a USERCTL
without its mask. -/
theorem decode_error_cases {p : Packet} {e : DecodeError} (h : decode p = .error e) :
    (e = .ReservedOpcode ∧ isReserved p.opcode) ∨
      (e = .PayloadShort ∧ p.opcode = Opcode.USERCTL.byte ∧ p.payload = []) := by
  obtain ⟨b, payload, o⟩ := p
  rcases isReserved_or_eq_byte b with hb | ⟨op, rfl⟩
  · rw [decode_of_isReserved hb] at h
    cases h
    exact .inl ⟨rfl, hb⟩
  · cases op with
    | USERCTL =>
      cases payload with
      | nil => cases h; exact .inr ⟨rfl, rfl, rfl⟩
      | cons M more => simp at h
    | FRAME | RESET | LOAD | PLAY | STOP | WAKE => simp at h

/-- A decoded command has the packet's opcode, and takes as many payload bytes as that opcode
calls for (R93, R94). -/
theorem opcode_and_leftover_of_decode_ok {p : Packet} {i : Instr} {more : List Byte}
    (h : decode p = .ok (i, more)) :
    p.opcode = i.opcode.byte ∧ more = p.payload.drop i.opcode.payloadLength := by
  obtain ⟨b, payload, o⟩ := p
  rcases isReserved_or_eq_byte b with hb | ⟨op, rfl⟩
  · rw [decode_of_isReserved hb] at h
    cases h
  · cases op with
    | USERCTL =>
      cases payload with
      | nil => simp at h
      | cons M rest => cases h; exact ⟨rfl, rfl⟩
    | FRAME | RESET | LOAD | PLAY | STOP | WAKE => cases h; exact ⟨rfl, rfl⟩

/-- Settles O1, by the decoder's equation for each command's opcode. -/
theorem decodeOfEncodeGivesTheCommandBack : Obligations.DecodeOfEncodeGivesTheCommandBack := by
  intro i more hwf
  cases i with
  | frame F now =>
    have hlen : F.length = 14 := beq_iff_eq.mp hwf
    simp [encode, Packet.append, List.take_left' hlen, List.drop_left' hlen]
  | userctl mute vol => simp [encode, Packet.append]
  | reset | load | play | stop | wake => simp [encode, Packet.append]

/-- Settles O2, by what the decoder can refuse and what it can answer. -/
theorem everyOpcodeByteIsACommandOrReserved :
    Obligations.EveryOpcodeByteIsACommandOrReserved := by
  intro op payload o
  refine ⟨⟨fun h => ?_, fun h => decode_of_isReserved h⟩, ⟨fun h => ?_, ?_⟩,
    fun _ _ => opcode_and_leftover_of_decode_ok⟩
  · rcases decode_error_cases h with ⟨-, hres⟩ | ⟨he, -, -⟩
    · exact hres
    · cases he
  · rcases decode_error_cases h with ⟨he, -⟩ | ⟨-, hshort⟩
    · cases he
    · exact hshort
  · rintro ⟨rfl, rfl⟩
    exact decode_userctl_short o

/-- Settles O3, each packet by the decoder's equation for its opcode. -/
theorem writtenOutPacketsDecode : Obligations.WrittenOutPacketsDecode :=
  ⟨decode_frame _ _, decode_userctl _ _ _, decode_reset _ _, decode_load _ _, decode_play _ _,
    decode_stop _ _, decode_wake _ _⟩

/-! ## The step on a packet that spells no command -/

/-- A step on a packet that does not decode takes it and is refused (R101, R102). -/
theorem step_of_decode_error {s : State} {p : Packet} {ps : List Packet} {e : DecodeError}
    (hpending : s.port.pending = p :: ps) (hdecode : decode p = .error e) :
    step s = .next ((s.withPending (leftoverOfError p e ++ ps)).refuse (refusalOf e)) := by
  simp only [step, hpending, hdecode]

/-- A step on a FRAME packet that ends inside its payload is refused for its length (R62). -/
theorem step_of_short_frame {s : State} {payload : List Byte} {o : TypedOperands}
    {ps : List Packet} (hpending : s.port.pending = ⟨Opcode.FRAME.byte, payload, o⟩ :: ps)
    (hshort : payload.length < 14) : step s = .next ((s.withPending ps).refuse .FrameLength) := by
  have htake : (payload.take 14).length ≠ 14 := by rw [List.length_take]; omega
  have hdrop : payload.drop 14 = [] := List.drop_eq_nil_of_le hshort.le
  rw [step_of_decode_ok hpending (decode_frame payload o), exec_frame_of_length_ne _ _ htake,
    hdrop]
  rfl

/-- A refusal after the packet is taken is a refusal of the state before. -/
theorem refuse_withPending_refusedWith (s : State) (ps : List Packet) (r : RefusalReason) :
    RefusedWith s ((s.withPending ps).refuse r) r := ⟨rfl, rfl, rfl, rfl⟩

/-- Settles O6: a reserved opcode and a short USERCTL do not decode, and a short FRAME decodes
to a command that FRAME refuses. -/
theorem packetsThatSpellNoCommandAreRefused :
    Obligations.PacketsThatSpellNoCommandAreRefused := by
  rintro s ⟨b, payload, o⟩ ps hpending
  refine ⟨fun hres => ?_, ?_⟩
  · exact ⟨_, step_of_decode_error hpending (decode_of_isReserved hres),
      refuse_withPending_refusedWith s _ _, rfl⟩
  · rintro (⟨rfl, hshort⟩ | ⟨rfl, rfl⟩)
    · exact ⟨_, step_of_short_frame hpending hshort, refuse_withPending_refusedWith s _ _, rfl⟩
    · exact ⟨_, step_of_decode_error hpending (decode_userctl_short o),
        refuse_withPending_refusedWith s _ _, rfl⟩

/-! ## The fields of a register image, as numbers (R83 to R89) -/

/-- A bit of a word, as a digit of its value. -/
theorem getLsbD_iff_toNat_div {w : Nat} (b : BitVec w) (i : Nat) :
    b.getLsbD i = true ↔ b.toNat / 2 ^ i % 2 = 1 := by
  rw [← BitVec.testBit_toNat, Nat.testBit_eq_decide_div_mod_eq, decide_eq_true_iff]

theorem tonePeriod_toNat (p : Params) (F : Image) (X : Voice) :
    (tonePeriod p F X).toNat =
      (regByte p F (regFine X)).toNat + 256 * ((regByte p F (regCoarse X)).toNat % 16) := by
  have hfine := (regByte p F (regFine X)).isLt
  rw [tonePeriod, BitVec.toNat_append, ← Nat.shiftLeft_add_eq_or_of_lt hfine,
    BitVec.extractLsb'_toNat, Nat.shiftRight_zero, Nat.shiftLeft_eq]
  omega

theorem envPeriod_toNat (p : Params) (F : Image) :
    (envPeriod p F).toNat = (regByte p F 11).toNat + 256 * (regByte p F 12).toNat := by
  have hlow := (regByte p F 11).isLt
  rw [envPeriod, BitVec.toNat_append, ← Nat.shiftLeft_add_eq_or_of_lt hlow, Nat.shiftLeft_eq]
  omega

theorem noisePeriod_toNat (p : Params) (F : Image) :
    (noisePeriod p F).toNat = (regByte p F 6).toNat % 32 := by
  simp [noisePeriod]

theorem staticLevel_toNat (p : Params) (F : Image) (X : Voice) :
    (staticLevel p F X).toNat = (regByte p F (regVolume X)).toNat % 16 := by
  simp [staticLevel]

theorem envShape_toNat (p : Params) (F : Image) :
    (envShape p F).toNat = (regByte p F 13).toNat % 16 := by
  simp [envShape]

theorem toneDisable_iff (p : Params) (F : Image) (X : Voice) :
    toneDisable p F X = true ↔ (regByte p F 7).toNat / 2 ^ X.k % 2 = 1 :=
  getLsbD_iff_toNat_div _ _

theorem noiseDisable_iff (p : Params) (F : Image) (X : Voice) :
    noiseDisable p F X = true ↔ (regByte p F 7).toNat / 2 ^ (3 + X.k) % 2 = 1 :=
  getLsbD_iff_toNat_div _ _

theorem envSelect_iff (p : Params) (F : Image) (X : Voice) :
    envSelect p F X = true ↔ (regByte p F (regVolume X)).toNat / 16 % 2 = 1 :=
  getLsbD_iff_toNat_div _ _

/-- The shape's own bits are the low bits of register 13. -/
theorem envShape_getLsbD_iff (p : Params) (F : Image) {i : Nat} (hi : i < 4) :
    (envShape p F).getLsbD i = true ↔ (regByte p F 13).toNat / 2 ^ i % 2 = 1 := by
  rw [← getLsbD_iff_toNat_div, envShape, BitVec.getLsbD_extractLsb', decide_eq_true hi,
    Bool.true_and, Nat.zero_add]

/-- Settles O8, a clause each from the field's own law. -/
theorem toneMixerAndEnvelopeFieldsAreAssembled :
    Obligations.ToneMixerAndEnvelopeFieldsAreAssembled := by
  intro p F R
  have hbit0 : R 7 % 2 = R 7 / 2 ^ 0 % 2 := by rw [pow_zero, Nat.div_one]
  have hshape0 : R 13 % 2 = R 13 / 2 ^ 0 % 2 := by rw [pow_zero, Nat.div_one]
  rw [hbit0, hshape0]
  exact ⟨fun h r => congrArg BitVec.toNat (regByte_default h r),
    tonePeriod_toNat p F .A, tonePeriod_toNat p F .B, tonePeriod_toNat p F .C,
    noisePeriod_toNat p F,
    toneDisable_iff p F .A, toneDisable_iff p F .B, toneDisable_iff p F .C,
    noiseDisable_iff p F .A, noiseDisable_iff p F .B, noiseDisable_iff p F .C,
    staticLevel_toNat p F .A, staticLevel_toNat p F .B, staticLevel_toNat p F .C,
    envSelect_iff p F .A, envSelect_iff p F .B, envSelect_iff p F .C,
    envPeriod_toNat p F, envShape_toNat p F,
    envShape_getLsbD_iff p F (by decide), envShape_getLsbD_iff p F (by decide),
    envShape_getLsbD_iff p F (by decide), envShape_getLsbD_iff p F (by decide)⟩

/-- Settles O7: the fields' laws, each register's byte read at its index of R80. -/
theorem noiseAndVolumeFieldsAreAssembled : Obligations.NoiseAndVolumeFieldsAreAssembled := by
  intro p F hmap
  have hvol (X : Voice) : (staticLevel p F X).toNat = (F.get (regVolume X)).toNat % 16 :=
    regByte_default hmap (regVolume X) ▸ staticLevel_toNat p F X
  have hsel (X : Voice) :
      envSelect p F X = true ↔ (F.get (regVolume X)).toNat / 16 % 2 = 1 :=
    regByte_default hmap (regVolume X) ▸ envSelect_iff p F X
  have hnp : (noisePeriod p F).toNat = (F.get 6).toNat % 32 :=
    regByte_default hmap 6 ▸ noisePeriod_toNat p F
  exact ⟨hnp, Nat.le_of_lt_succ (Nat.mod_lt _ (by decide)), hvol .A, hvol .B, hvol .C,
    hsel .A, hsel .B, hsel .C⟩

/-! ## The bits the decoder reads (R91) -/

/-- Two bytes that agree under a mask agree in every bit of the mask. -/
theorem getLsbD_eq_of_and_eq {b b' m : Byte} (h : b &&& m = b' &&& m) {i : Nat}
    (hi : m.getLsbD i = true) : b.getLsbD i = b'.getLsbD i := by
  have hbit := congrArg (BitVec.getLsbD · i) h
  simpa [hi] using hbit

/-- Two bytes that agree under a mask that has all low `n` bits agree in those bits. -/
theorem extractLsb'_eq_of_and_eq {b b' m : Byte} (h : b &&& m = b' &&& m) {n : Nat}
    (hm : ∀ i < n, m.getLsbD i = true) : b.extractLsb' 0 n = b'.extractLsb' 0 n := by
  refine BitVec.eq_of_getLsbD_eq fun i hi => ?_
  rw [BitVec.getLsbD_extractLsb', BitVec.getLsbD_extractLsb', Nat.zero_add,
    getLsbD_eq_of_and_eq h (hm i hi)]

/-- Two images agree in every bit of every register that the decoder reads. -/
def AgreeInUsedBits (p : Params) (F F' : Image) : Prop :=
  ∀ r : Fin 14, regByte p F r &&& usedBits[r] = regByte p F' r &&& usedBits[r]

/-- A register all of whose bits are read is the same byte in both images. -/
theorem AgreeInUsedBits.regByte_eq {p : Params} {F F' : Image} (h : AgreeInUsedBits p F F')
    {r : Fin 14} (hr : usedBits[r] = 0xFF) : regByte p F r = regByte p F' r := by
  have hbyte := h r
  rwa [hr, show (0xFF : Byte) = BitVec.allOnes 8 from rfl, BitVec.and_allOnes,
    BitVec.and_allOnes] at hbyte

/-- The fields see the used bits only (R91). -/
theorem AgreeInUsedBits.fieldsOf_eq {p : Params} {F F' : Image} (h : AgreeInUsedBits p F F') :
    fieldsOf p F = fieldsOf p F' := by
  have htp : tonePeriod p F = tonePeriod p F' := funext fun X => by
    rw [tonePeriod, tonePeriod, h.regByte_eq (r := regFine X) (by cases X <;> rfl),
      extractLsb'_eq_of_and_eq (h (regCoarse X)) (by cases X <;> decide)]
  have htone : toneDisable p F = toneDisable p F' := funext fun X =>
    getLsbD_eq_of_and_eq (h 7) (by cases X <;> rfl)
  have hnoise : noiseDisable p F = noiseDisable p F' := funext fun X =>
    getLsbD_eq_of_and_eq (h 7) (by cases X <;> rfl)
  have hvol : staticLevel p F = staticLevel p F' := funext fun X =>
    extractLsb'_eq_of_and_eq (h (regVolume X)) (by cases X <;> decide)
  have hsel : envSelect p F = envSelect p F' := funext fun X =>
    getLsbD_eq_of_and_eq (h (regVolume X)) (by cases X <;> rfl)
  have hnp : noisePeriod p F = noisePeriod p F' := extractLsb'_eq_of_and_eq (h 6) (by decide)
  have hep : envPeriod p F = envPeriod p F' := by
    rw [envPeriod, envPeriod, h.regByte_eq (r := 12) rfl, h.regByte_eq (r := 11) rfl]
  have hshape : envShape p F = envShape p F' := extractLsb'_eq_of_and_eq (h 13) (by decide)
  rw [fieldsOf, fieldsOf, htp, htone, hnoise, hvol, hsel, hnp, hep, hshape]

/-- `block FRAME` sees an image through its fields only (R105). -/
theorem issueFrame_eq_of_fieldsOf_eq {s : State} {F F' : Image} (now : Rat)
    (h : fieldsOf s.params F = fieldsOf s.params F') :
    s.issueFrame F now = s.issueFrame F' now := by
  simp only [State.issueFrame, frameEffect, decodeFrame, h]

/-- Settles O9: images that agree in the used bits have the same fields. -/
theorem unusedImageBitsChangeNothing : Obligations.UnusedImageBitsChangeNothing := by
  intro s F F' now h
  have hagree : AgreeInUsedBits s.params F F' := h
  rw [exec_frame_toList, exec_frame_toList, issueFrame_eq_of_fieldsOf_eq now hagree.fieldsOf_eq]

/-! ## SILENCE -/

/-- The image of SILENCE (R104). -/
def silenceImage : Image :=
  #v[0x00, 0x00, 0x00, 0x00, 0x00, 0x00, 0x00, 0x3F, 0x00, 0x00, 0x00, 0x00, 0x00, 0x00]

theorem silence_eq_frame (now : Rat) : Instr.silence now = .frame silenceImage.toList now := rfl

/-- SILENCE disables every tone, where the mixer stands at its index of R80. -/
theorem toneOff_silenceImage {p : Params} (h : p.REG_INDEX = Config.defaultRegIndex)
    (X : Voice) : (fieldsOf p silenceImage).toneOff.get X = true := by
  rw [fieldsOf, Voices.get_ofFn, toneDisable, regByte_default h]
  cases X <;> rfl

/-- SILENCE disables the noise of every voice, where the mixer stands at its index of R80. -/
theorem noiseOff_silenceImage {p : Params} (h : p.REG_INDEX = Config.defaultRegIndex)
    (X : Voice) : (fieldsOf p silenceImage).noiseOff.get X = true := by
  rw [fieldsOf, Voices.get_ofFn, noiseDisable, regByte_default h]
  cases X <;> rfl

/-- A tone that its mixer bit disables is off (R115). -/
theorem toneOn_of_toneOff {f : Fields} {X : Voice} (S : Block) (h : f.toneOff.get X = true) :
    toneOn f S X = false := by
  simp [toneOn, h]

/-- Noise that every mixer bit disables is off (R117, R118). -/
theorem noiseOn_of_noiseOff {f : Fields} (l : Rat) (S : Block)
    (h : ∀ X, f.noiseOff.get X = true) : noiseOn f l S = false := by
  refine Bool.eq_false_iff.mpr fun hon => ?_
  obtain ⟨⟨X, hX⟩, -⟩ := noiseOn_iff.mp hon
  obtain ⟨hoff, -⟩ := mem_contributors.mp hX
  exact Bool.false_ne_true (hoff.symm.trans (h X))

/-- APPLY's clamp keeps a silent path silent (R162). -/
theorem VoiceRegs.OffIsSilent.applied {r : VoiceRegs} (h : r.OffIsSilent) :
    (appliedRegs r).OffIsSilent where
  tone X hX := by simp [appliedRegs, h.tone X hX]
  noise hN := by simp [appliedRegs, h.noise hN]

/-- Settles O22: SILENCE is a FRAME with every path off, and what is off has gain 0. -/
theorem silenceCommandSilences : Obligations.SilenceCommandSilences := by
  intro s now hmap htime
  have hsilent : (frameEffect s.params silenceImage now s.S).OUT.OffIsSilent :=
    (targets_offIsSilent s.params _ _ s.S).applied
  have htone (X : Voice) :
      (frameEffect s.params silenceImage now s.S).OUT.on.get X = false :=
    (Voices.get_ofFn _ X).trans (toneOn_of_toneOff s.S (toneOff_silenceImage hmap X))
  have hnoise : (frameEffect s.params silenceImage now s.S).OUT.non = false :=
    noiseOn_of_noiseOff _ s.S (noiseOff_silenceImage hmap)
  rw [silence_eq_frame]
  exact ⟨_, exec_frame_next htime, fun X => ⟨htone X, hsilent.tone X (htone X)⟩, hnoise,
    hsilent.noise hnoise⟩

/-! ## LOAD with a bad rate -/

/-- LOAD of a Track whose rate is not > 0 is refused (R101). -/
theorem exec_load_of_rate_nonpos {track : Track} (s : State) (h : track.rate ≤ 0) :
    exec (.load (.ok track)) s = .next (s.refuse .BadRate) := by
  simp only [exec, execLoad, h, if_true]

/-- Settles O41, by LOAD's equation for a bad rate. -/
theorem loadWithBadRateIsRefused : Obligations.LoadWithBadRateIsRefused :=
  fun s _ h => ⟨_, exec_load_of_rate_nonpos s h, refuse_refusedWith s _, rfl⟩

/-! ## Command text -/

/-- Settles O60: the reader evaluated on each of the seven lines. -/
theorem commandTextReads : Obligations.CommandTextReads := by
  unfold Obligations.CommandTextReads
  refine ⟨?_, ?_, ?_, ?_, ?_, ?_, ?_⟩ <;> decide +kernel

end Sys2Proof.Machine
end

section
/-!
The obligations on the register decoder (spec/40_register_decoder.md): a FRAME completes with every
register in range, the tone and noise targets it writes, the silence of the paths that are off,
the independence of pitch and loudness, and what a FRAME leaves.
-/

namespace Sys2Proof.Machine

/-! ## A FRAME that is not refused -/

/-- The one state that a FRAME not earlier than the last apply can answer. -/
theorem exec_frame_eq {s t : State} {F : Image} {now : Rat} (htime : timeOk s.S now)
    (h : exec (.frame F.toList now) s = .next t) :
    t = s.withS (frameEffect s.params F now s.S) := by
  rw [exec_frame_next htime] at h
  cases h
  rfl

/-- FRAME's targets are computed from the level of its own envelope update (R106). -/
theorem frameEffect_TGT_of_ENV (p : Params) (F : Image) (now : Rat) (S : Block) :
    (frameEffect p F now S).TGT =
      targets p (fieldsOf p F) (frameEffect p F now S).ENV.level S := rfl

/-- Settles O10: FRAME's effect keeps the block's invariant, whose ranges are R122's. -/
theorem frameIsTotal : Obligations.FrameIsTotal := by
  intro s F now hinv hlen htime
  obtain ⟨img, -, rfl⟩ := imageOf?_eq_some hlen
  have hblock : (frameEffect s.params img now s.S).Inv s.params :=
    frameEffect_inv hinv.params hinv.block (earlierThanLastApply_eq_false.mpr htime)
  exact ⟨_, exec_frame_next htime, rfl, hblock.tgt, hblock.out, rfl, List.length_append⟩

/-- Settles O17: FRAME's effect writes the envelope, the targets, the outputs and the history. -/
theorem frameLeavesTheRest : Obligations.FrameLeavesTheRest :=
  fun _ _ _ htime => ⟨_, exec_frame_next htime, ⟨rfl, rfl, rfl, rfl, rfl, rfl, rfl⟩⟩

/-! ## The tone targets (R107, R112 to R115) -/

@[simp] theorem targets_freq_get (p : Params) (f : Fields) (l : Rat) (S : Block) (X : Voice) :
    (targets p f l S).freq.get X = TONE_FREQ p (f.tp.get X) := Voices.get_ofFn _ X

@[simp] theorem targets_gain_get (p : Params) (f : Fields) (l : Rat) (S : Block) (X : Voice) :
    (targets p f l S).gain.get X = toneGain f l S X := Voices.get_ofFn _ X

@[simp] theorem targets_on_get (p : Params) (f : Fields) (l : Rat) (S : Block) (X : Voice) :
    (targets p f l S).on.get X = toneOn f S X := Voices.get_ofFn _ X

/-- The frequency law, its test put to the period's value. -/
theorem TONE_FREQ_eq (p : Params) (tp : BitVec 12) :
    TONE_FREQ p tp =
      if tp.toNat ≠ 0 then p.CHIP_CLOCK_HZ / (16 * (tp.toNat : Rat)) else p.TONE_FLOOR_HZ :=
  if_congr BitVec.toNat_ne rfl rfl

theorem tonePasses_iff {f : Fields} {S : Block} {X : Voice} :
    tonePasses f S X = true ↔ S.MUTE.get X.path = false ∧ f.toneOff.get X = false := by
  simp [tonePasses]

theorem toneOn_iff {f : Fields} {S : Block} {X : Voice} :
    toneOn f S X = true ↔
      f.toneOff.get X = false ∧ (f.envSel.get X = true ∨ 0 < (f.vol.get X).toNat) ∧
        S.MUTE.get X.path = false := by
  simp [toneOn, and_assoc]

/-- A channel level lies in [0, 1] where the envelope's does: a static level is at most 15. -/
theorem channelLevel_mem (f : Fields) {l : Rat} (hl : 0 ≤ l ∧ l ≤ 1) (X : Voice) :
    0 ≤ channelLevel f l X ∧ channelLevel f l X ≤ 1 := by
  unfold channelLevel
  split
  · exact hl
  · have hvol : ((f.vol.get X).toNat : Rat) ≤ 15 := by
      exact_mod_cast Nat.le_of_lt_succ (f.vol.get X).isLt
    exact ⟨by positivity, (div_le_one (by norm_num)).mpr hvol⟩

/-- The clamp of the tone gain changes nothing where level and volume lie in [0, 1] (R114). -/
theorem toneGain_of_mem {f : Fields} {l : Rat} {S : Block} {X : Voice} (hl : 0 ≤ l ∧ l ≤ 1)
    (hvol : 0 ≤ S.UVOL.get X.path ∧ S.UVOL.get X.path ≤ 1) :
    toneGain f l S X =
      channelLevel f l X * S.UVOL.get X.path * (if tonePasses f S X then 1 else 0) := by
  obtain ⟨hlevel0, hlevel1⟩ := channelLevel_mem f hl X
  have hproduct : 0 ≤ channelLevel f l X * S.UVOL.get X.path ∧
      channelLevel f l X * S.UVOL.get X.path ≤ 1 :=
    ⟨mul_nonneg hlevel0 hvol.1, mul_le_one₀ hlevel1 hvol.1 hvol.2⟩
  refine clamp01_of_mem ?_
  split
  · rwa [mul_one]
  · rw [mul_zero]
    exact ⟨le_refl 0, zero_le_one⟩

/-- Settles O11, a clause each from the law of that target. -/
theorem frameWritesTheToneTargets : Obligations.FrameWritesTheToneTargets := by
  intro s F now htime
  refine ⟨_, exec_frame_next htime, fun X => ?_⟩
  intro f lvl pass
  simp only [State.withS_S, frameEffect_TGT_of_ENV, targets_freq_get, targets_gain_get,
    targets_on_get]
  have hpass : (if tonePasses f s.S X then 1 else 0 : Rat) = pass :=
    if_congr tonePasses_iff rfl rfl
  refine ⟨TONE_FREQ_eq s.params _, ?_, fun hinv hmax => ?_, ENV_UPDATE_lastTime _ _ _ _ _,
    toneOn_iff⟩
  · rw [← hpass]
    rfl
  · have hvol := hinv.block.uvol X.path
    have hlevel : 0 ≤ (frameEffect s.params F now s.S).ENV.level ∧
        (frameEffect s.params F now s.S).ENV.level ≤ 1 :=
      (ENV_UPDATE_inRange (ENV_PERIOD_SECONDS_pos hinv.params _) hinv.block.env).level
    rw [hmax] at hvol
    rw [toneGain_of_mem hlevel hvol, hpass]
    rfl

/-! ## The noise targets (R110, R117 to R119) -/

/-- The noise scale at the default parameters (R110). -/
theorem NOISE_FREQ_params (np : BitVec 5) :
    NOISE_FREQ Config.params np = 200 * (np.toNat : Rat) + 1000 := rfl

/-- Settles O12: the target is the scale's value, and the default scale is evaluated at the
least and the greatest period. -/
theorem frameWritesTheNoiseFrequency : Obligations.FrameWritesTheNoiseFrequency := by
  refine ⟨fun s F now htime => ⟨_, exec_frame_next htime, rfl⟩, NOISE_FREQ_params, ?_, ?_⟩
  · norm_num [NOISE_FREQ_params]
  · norm_num [NOISE_FREQ_params, show (31 : BitVec 5).toNat = 31 from rfl]

/-- Settles O13, by the laws of the noise contributors and of a loudest one among them. -/
theorem frameWritesTheNoiseGate : Obligations.FrameWritesTheNoiseGate := by
  intro s F now htime
  refine ⟨_, exec_frame_next htime, ?_⟩
  intro f eff K
  have hK (X : Voice) :
      X ∈ contributors f (frameEffect s.params F now s.S).ENV.level s.S ↔ K X :=
    mem_contributors
  refine ⟨noiseOn_iff.trans (and_congr_left' (exists_congr hK)), fun hon => ?_,
    noiseGain_of_off⟩
  obtain ⟨X, hX, hloudest, hgain⟩ := noiseGain_of_on hon
  exact ⟨X, (hK X).mp hX, fun Y hY => hloudest Y ((hK Y).mpr hY), hgain⟩

/-! ## What is off is silent (R116, R119) -/

/-- Settles O19: FRAME's targets have gain 0 where off, and APPLY keeps that. -/
theorem pathsThatAreOffHaveGainZero : Obligations.PathsThatAreOffHaveGainZero := by
  intro s t F now htime h
  obtain rfl := exec_frame_eq htime h
  have htargets : (frameEffect s.params F now s.S).TGT.OffIsSilent :=
    targets_offIsSilent s.params _ _ s.S
  have houtputs := htargets.applied
  exact ⟨fun X hX => ⟨htargets.tone X hX, houtputs.tone X hX⟩,
    fun hN => ⟨htargets.noise hN, houtputs.noise hN⟩⟩

/-! ## Pitch and loudness (R109) -/

/-- The tone periods are read from registers 0 to 5 alone (R83). -/
theorem tonePeriod_eq_of_regByte_eq {p : Params} {F F' : Image}
    (h : ∀ r : Fin 14, r.val < 6 → regByte p F r = regByte p F' r) (X : Voice) :
    tonePeriod p F X = tonePeriod p F' X := by
  rw [tonePeriod, tonePeriod, h (regFine X) (by cases X <;> decide),
    h (regCoarse X) (by cases X <;> decide)]

/-- Every field but the tone periods is read from registers 6 to 13 alone (R84 to R89). -/
theorem fieldsOf_eq_of_regByte_eq {p : Params} {F F' : Image}
    (h : ∀ r : Fin 14, 6 ≤ r.val → regByte p F r = regByte p F' r) :
    fieldsOf p F = { fieldsOf p F' with tp := (fieldsOf p F).tp } := by
  have hvolume (X : Voice) : regByte p F (regVolume X) = regByte p F' (regVolume X) :=
    h _ (by cases X <;> decide)
  have hmixer : regByte p F 7 = regByte p F' 7 := h 7 (by decide)
  have htone : toneDisable p F = toneDisable p F' := funext fun X => by
    rw [toneDisable, toneDisable, hmixer]
  have hnoise : noiseDisable p F = noiseDisable p F' := funext fun X => by
    rw [noiseDisable, noiseDisable, hmixer]
  have hlevel : staticLevel p F = staticLevel p F' := funext fun X => by
    rw [staticLevel, staticLevel, hvolume]
  have hsel : envSelect p F = envSelect p F' := funext fun X => by
    rw [envSelect, envSelect, hvolume]
  have hnp : noisePeriod p F = noisePeriod p F' := by
    rw [noisePeriod, noisePeriod, h 6 (by decide)]
  have hep : envPeriod p F = envPeriod p F' := by
    rw [envPeriod, envPeriod, h 11 (by decide), h 12 (by decide)]
  have hshape : envShape p F = envShape p F' := by
    rw [envShape, envShape, h 13 (by decide)]
  simp only [fieldsOf, htone, hnoise, hlevel, hsel, hnp, hep, hshape]

/-- Other tone periods give other tone frequencies and no other target (R109). -/
theorem targets_with_tp (p : Params) (f : Fields) (tp : Voices (BitVec 12)) (l : Rat)
    (S : Block) :
    targets p { f with tp := tp } l S =
      { targets p f l S with freq := Voices.ofFn fun X => TONE_FREQ p (tp.get X) } := rfl

/-- The frequency targets of a FRAME depend on the tone periods alone, whatever its time and
the block (R107, R109). -/
theorem frameEffect_freq_eq {p : Params} {F F' : Image} (now now' : Rat) (S S' : Block)
    (h : ∀ X, tonePeriod p F X = tonePeriod p F' X) :
    (frameEffect p F now S).TGT.freq = (frameEffect p F' now' S').TGT.freq := by
  simp only [frameEffect_TGT, targets, fieldsOf, Voices.get_ofFn, h]

/-- Images that differ in the tone periods alone update the envelope alike. -/
theorem frameEffect_ENV_eq {p : Params} {F F' : Image} (now : Rat) (S : Block)
    (h : fieldsOf p F = { fieldsOf p F' with tp := (fieldsOf p F).tp }) :
    (frameEffect p F now S).ENV = (frameEffect p F' now S).ENV := by
  have hshape : envShape p F = envShape p F' := congrArg Fields.shape h
  have hep : envPeriod p F = envPeriod p F' := congrArg Fields.ep h
  rw [frameEffect_ENV, frameEffect_ENV, hshape, hep]

/-- Images that differ in the tone periods alone have the same targets but for the tone
frequencies (R109). -/
theorem frameEffect_TGT_eq {p : Params} {F F' : Image} (now : Rat) (S : Block)
    (h : fieldsOf p F = { fieldsOf p F' with tp := (fieldsOf p F).tp }) :
    (frameEffect p F now S).TGT =
      { (frameEffect p F' now S).TGT with freq := (frameEffect p F now S).TGT.freq } := by
  rw [frameEffect_TGT_of_ENV, frameEffect_TGT_of_ENV, frameEffect_ENV_eq now S h, h,
    targets_with_tp]

/-- Settles O21: the tone periods alone set the frequencies, and set nothing else. -/
theorem pitchAndLoudnessAreIndependent : Obligations.PitchAndLoudnessAreIndependent := by
  intro s s' t t' F F' now now' hparams htime htime' h h'
  obtain rfl := exec_frame_eq htime h
  obtain rfl := exec_frame_eq htime' h'
  refine ⟨fun hpitch => ?_, ?_⟩
  · rw [State.withS_S, State.withS_S, ← hparams]
    exact frameEffect_freq_eq now now' s.S s'.S (tonePeriod_eq_of_regByte_eq hpitch)
  · rintro rfl rfl hloudness
    have hfields := fieldsOf_eq_of_regByte_eq hloudness
    have hTGT := frameEffect_TGT_eq now s.S hfields
    exact ⟨(congrArg VoiceRegs.gain hTGT :), (congrArg VoiceRegs.on hTGT :),
      (congrArg VoiceRegs.ngain hTGT :), (congrArg VoiceRegs.non hTGT :),
      frameEffect_ENV_eq now s.S hfields⟩

end Sys2Proof.Machine
end

section
/-!
The obligations on the envelope generator (spec/41_envelope_generator.md): when a FRAME retriggers
the envelope and when it advances it, how the phase moves, the level law, and the derived period.
-/

namespace Sys2Proof.Machine

/-! ## The update, an equation per action (R130, R132) -/

theorem ENV_UPDATE_eq_envRetrigger {p : Params} {E : Envelope} {shape : BitVec 4} {T : Rat}
    (now : Rat) (h : E.shape ≠ some shape ∨ p.ENV_PERIOD_TOLERANCE < |T - E.period|) :
    ENV_UPDATE p E shape T now = envRetrigger shape T now :=
  if_pos ((retriggers_iff p E shape T).mpr h)

theorem ENV_UPDATE_eq_envAdvance {p : Params} {E : Envelope} {shape : BitVec 4} {T : Rat}
    (now : Rat) (hshape : E.shape = some shape)
    (hperiod : |T - E.period| ≤ p.ENV_PERIOD_TOLERANCE) :
    ENV_UPDATE p E shape T now = envAdvance E shape now :=
  if_neg fun h => ((retriggers_iff p E shape T).mp h).elim (· hshape) hperiod.not_gt

/-- An update that ends Running is an advance of the stored shape (R39). -/
theorem ENV_UPDATE_of_running {p : Params} {E : Envelope} {shape : BitVec 4} {T now : Rat}
    (h : (ENV_UPDATE p E shape T now).mode = .Running) :
    E.shape = some shape ∧ ENV_UPDATE p E shape T now = envAdvance E shape now := by
  rcases ENV_UPDATE_cases p E shape T now with ⟨-, hE⟩ | ⟨-, hshape, hE⟩
  · rw [hE] at h
    cases h
  · exact ⟨hshape, hE⟩

theorem cycleDoneAfter_iff {E : Envelope} {acc : Rat} :
    cycleDoneAfter E acc = true ↔ E.cycleDone = true ∨ 1 ≤ acc := by
  simp [cycleDoneAfter]

/-- Settles O14: each of the three conditions makes the update a retrigger. -/
theorem frameRetriggersTheEnvelope : Obligations.FrameRetriggersTheEnvelope := by
  intro s F now htime hchange
  have hcondition : s.S.ENV.shape ≠ some (envShape s.params F) ∨
      s.params.ENV_PERIOD_TOLERANCE <
        |ENV_PERIOD_SECONDS s.params (envPeriod s.params F) - s.S.ENV.period| := by
    rcases hchange with hnone | hother
    · exact .inl (by simp [hnone])
    · exact hother
  refine ⟨_, exec_frame_next htime, ?_⟩
  rw [State.withS_S, frameEffect_ENV, ENV_UPDATE_eq_envRetrigger now hcondition]
  exact ⟨rfl, rfl, rfl, rfl, rfl, rfl, rfl⟩

/-- Settles O15: the update is an advance, whose cycle-done bit is R137's. -/
theorem frameAdvancesTheEnvelope : Obligations.FrameAdvancesTheEnvelope := by
  intro s F now htime hshape hperiod
  refine ⟨_, exec_frame_next htime, ?_⟩
  rw [State.withS_S, frameEffect_ENV, ENV_UPDATE_eq_envAdvance now hshape hperiod]
  exact ⟨rfl, rfl, rfl, cycleDoneAfter_iff, rfl, rfl, rfl⟩

/-! ## The phase (R134 to R136, R150) -/

@[simp] theorem envAdvance_phase (E : Envelope) (shape : BitVec 4) (now : Rat) :
    (envAdvance E shape now).phase = frac (accumulatedPhase E now) := rfl

/-- The sum before wrapping, `x` periods after the last update. -/
theorem accumulatedPhase_of_periods {E : Envelope} (hE : E.InRange) (x : Rat) :
    accumulatedPhase E (E.lastTime + x * E.period) = E.phase + x := by
  rw [accumulatedPhase, add_sub_cancel_left, mul_div_cancel_right₀ _ hE.period.ne']

/-- Settles O26: the sum before wrapping is old phase plus `k + r`, and wrapping drops `k`. -/
theorem phaseWrapsByWholePeriods : Obligations.PhaseWrapsByWholePeriods := by
  rintro E shape k r _ hE - - rfl
  refine ⟨frac_nonneg _, frac_lt_one _, ?_⟩
  rw [envAdvance_phase, accumulatedPhase_of_periods hE, add_comm (k : Rat), ← add_assoc,
    frac_add_nat, frac_eq_fract]

/-- Settles O27: the envelope was last updated at the last apply, so the elapsed time is that
since the apply; a sum below 1 is not wrapped. -/
theorem phaseProgressesWithTheClock : Obligations.PhaseProgressesWithTheClock := by
  intro s t F now hinv htime h hrunning
  obtain rfl := exec_frame_eq htime h
  rw [State.withS_S, frameEffect_ENV] at hrunning ⊢
  obtain ⟨hshape, hadvance⟩ := ENV_UPDATE_of_running hrunning
  have hlast : s.S.OUT.time = some s.S.ENV.lastTime := hinv.block.armed (by simp [hshape])
  obtain ⟨hphase0, hphase1⟩ := hinv.block.env.phase
  rw [hadvance, envAdvance_phase, accumulatedPhase, hlast]
  refine ⟨?_, ?_⟩
  · rintro ⟨⟩
    rw [sub_self, zero_div, add_zero, frac_of_mem hphase0 hphase1]
  · rintro _ ⟨⟩ hlater hbelow
    have hmoved : 0 < (now - s.S.ENV.lastTime) / s.S.ENV.period :=
      div_pos (sub_pos.mpr hlater) hinv.block.env.period
    rw [frac_of_mem (by positivity) hbelow]
    exact ⟨lt_add_of_pos_right _ hmoved, rfl⟩

/-! ## The level law (R138 to R144) -/

theorem FALL_mem {q : Rat} (h : 0 ≤ q ∧ q < 1) : 0 ≤ FALL q ∧ FALL q ≤ 1 :=
  ⟨sub_nonneg.mpr h.2.le, sub_le_self 1 h.1⟩

/-- The law of every shape lies in [0, 1] on a wrapped phase, as its family's does (R143). -/
theorem LEVEL_mem (shape : BitVec 4) {q : Rat} (h : 0 ≤ q ∧ q < 1) (cd : Bool) :
    0 ≤ LEVEL shape q cd ∧ LEVEL shape q cd ≤ 1 := by
  unfold LEVEL
  split_ifs
  · exact ⟨h.1, h.2.le⟩
  · exact RISE_HOLD_mem h cd
  · exact TRIANGLE_mem h (shapeAttack shape)
  · exact FALL_mem h

/-- The level that an advance stores is the law itself (R143). -/
theorem envAdvance_level (E : Envelope) (shape : BitVec 4) (now : Rat) :
    (envAdvance E shape now).level =
      LEVEL shape (envAdvance E shape now).phase (envAdvance E shape now).cycleDone :=
  clamp01_of_mem (LEVEL_mem shape ⟨frac_nonneg _, frac_lt_one _⟩ _)

/-- Settles O23, by the range of the law. -/
theorem levelLawNeedsNoClamp : Obligations.LevelLawNeedsNoClamp := by
  refine ⟨fun shape q cd h0 h1 => ?_, fun E shape now => ⟨rfl, envAdvance_level E shape now⟩⟩
  obtain ⟨hnonneg, hleOne⟩ := LEVEL_mem shape ⟨h0, h1⟩ cd
  exact ⟨hnonneg, hleOne, clamp01_of_mem ⟨hnonneg, hleOne⟩⟩

section Families

variable {shape : BitVec 4} (q : Rat) (cd : Bool)

theorem LEVEL_eq_fall (h : shapeAttack shape = false ∧ shapeAlternate shape = false) :
    LEVEL shape q cd = 1 - q := by
  simp [LEVEL, h, FALL]

theorem LEVEL_eq_triangle_falling
    (h : shapeAttack shape = false ∧ shapeAlternate shape = true) :
    LEVEL shape q cd = |1 - 2 * q| := by
  simp [LEVEL, h, TRIANGLE, absRat_eq_abs]

theorem LEVEL_eq_riseRepeat
    (h : shapeAttack shape = true ∧ shapeAlternate shape = false ∧ shapeHold shape = false) :
    LEVEL shape q cd = q := by
  simp [LEVEL, h, RISE_REPEAT]

theorem LEVEL_eq_riseHold (h : shapeAttack shape = true ∧ shapeHold shape = true) :
    LEVEL shape q cd = if cd = true then 1 else q := by
  simp [LEVEL, h, RISE_HOLD]

theorem LEVEL_eq_triangle_rising
    (h : shapeAttack shape = true ∧ shapeAlternate shape = true ∧ shapeHold shape = false) :
    LEVEL shape q cd = 1 - |1 - 2 * q| := by
  simp [LEVEL, h, TRIANGLE, absRat_eq_abs]

end Families

/-- The Attack, Alternate and Hold bits of the 16 shape codes, in the lists of R138's table. -/
theorem shapeBits_of_code : ∀ shape : BitVec 4,
    (shape.toNat ∈ [0, 1, 8, 9] → shapeAttack shape = false ∧ shapeAlternate shape = false) ∧
    (shape.toNat ∈ [2, 3, 10, 11] → shapeAttack shape = false ∧ shapeAlternate shape = true) ∧
    (shape.toNat ∈ [4, 12] →
      shapeAttack shape = true ∧ shapeAlternate shape = false ∧ shapeHold shape = false) ∧
    (shape.toNat ∈ [5, 7, 13, 15] → shapeAttack shape = true ∧ shapeHold shape = true) ∧
    (shape.toNat ∈ [6, 14] →
      shapeAttack shape = true ∧ shapeAlternate shape = true ∧ shapeHold shape = false) := by
  decide

/-- Settles O24: a list's codes share the bits that select its family. -/
theorem everyShapeHasItsWaveFamily : Obligations.EveryShapeHasItsWaveFamily := by
  intro shape q cd
  obtain ⟨hfall, hfalling, hrepeat, hhold, hrising⟩ := shapeBits_of_code shape
  exact ⟨fun h => LEVEL_eq_fall q cd (hfall h),
    fun h => LEVEL_eq_triangle_falling q cd (hfalling h),
    fun h => LEVEL_eq_riseRepeat q cd (hrepeat h),
    fun h => LEVEL_eq_riseHold q cd (hhold h),
    fun h => LEVEL_eq_triangle_rising q cd (hrising h)⟩

/-- The Attack, Alternate and Hold bits alone select the family (R144). -/
theorem LEVEL_congr {shape shape' : BitVec 4} (hattack : shapeAttack shape' = shapeAttack shape)
    (halternate : shapeAlternate shape' = shapeAlternate shape)
    (hhold : shapeHold shape' = shapeHold shape) (q : Rat) (cd : Bool) :
    LEVEL shape' q cd = LEVEL shape q cd := by
  rw [LEVEL, hattack, halternate, hhold, LEVEL]

theorem flipContinue_ne : ∀ shape : BitVec 4, shape ^^^ 8#4 ≠ shape := by decide

/-- Settles O25: the flip keeps the three bits that the law reads, and is another shape. -/
theorem continueBitOnlyRetriggers : Obligations.ContinueBitOnlyRetriggers := by
  intro shape q cd p E T now
  refine ⟨LEVEL_congr (by simp [shapeAttack]) (by simp [shapeAlternate]) (by simp [shapeHold]) q cd,
    fun hstored => ?_⟩
  have hchange : E.shape ≠ some (shape ^^^ 8#4) := by
    simpa [hstored] using (flipContinue_ne shape).symm
  rw [ENV_UPDATE_eq_envRetrigger now (.inl hchange)]
  exact ⟨rfl, rfl⟩

/-! ## The derived period (R131, R154) -/

/-- The derived period where the parameter has no value of its own. -/
theorem ENV_PERIOD_SECONDS_of_not_mem {p : Params} {ep : BitVec 16}
    (h : ∀ e ∈ p.ENV_PERIOD_OVERRIDE, e.1 ≠ ep) :
    ENV_PERIOD_SECONDS p ep = 256 * max (ep.toNat : Rat) 1 / p.CHIP_CLOCK_HZ := by
  have hnone : p.ENV_PERIOD_OVERRIDE.find? (fun e => e.1 == ep) = none :=
    List.find?_eq_none.mpr fun e he => by simpa using h e he
  have hmax : ((Nat.max ep.toNat 1 : Nat) : Rat) = max (ep.toNat : Rat) 1 :=
    (Nat.cast_max ..).trans (by rw [Nat.cast_one])
  rw [ENV_PERIOD_SECONDS, hnone, ← hmax]
  rfl

/-- The derived period where the parameter has a value of its own: the first listed. -/
theorem ENV_PERIOD_SECONDS_of_first {p : Params} {ep : BitVec 16} {T : Rat}
    {before after : List (BitVec 16 × Rat)}
    (hlist : p.ENV_PERIOD_OVERRIDE = before ++ (ep, T) :: after)
    (hbefore : ∀ e ∈ before, e.1 ≠ ep) : ENV_PERIOD_SECONDS p ep = T := by
  have hnone : before.find? (fun e => e.1 == ep) = none :=
    List.find?_eq_none.mpr fun e he => by simpa using hbefore e he
  have hfirst : p.ENV_PERIOD_OVERRIDE.find? (fun e => e.1 == ep) = some (ep, T) := by
    simp [hlist, List.find?_append, hnone]
  rw [ENV_PERIOD_SECONDS, hfirst]

/-- The maximum with 1 tells any two register values apart but 0 and 1 (R154). -/
theorem max_one_eq_iff {a b : Nat} :
    max (a : Rat) 1 = max (b : Rat) 1 ↔ a = b ∨ a ≤ 1 ∧ b ≤ 1 := by
  have hcast : max (a : Rat) 1 = max (b : Rat) 1 ↔ max a 1 = max b 1 := by norm_cast
  rw [hcast]
  omega

/-- Settles O28: default periods are equal exactly where their `max(ep, 1)` are. -/
theorem onlyPeriodsZeroAndOneCoincide : Obligations.OnlyPeriodsZeroAndOneCoincide := by
  refine ⟨fun _ _ => ENV_PERIOD_SECONDS_of_not_mem, fun _ _ _ _ _ => ENV_PERIOD_SECONDS_of_first,
    fun p ep ep' hp hlist => ?_⟩
  have hdefault (ep : BitVec 16) :
      ENV_PERIOD_SECONDS p ep = 256 * max (ep.toNat : Rat) 1 / p.CHIP_CLOCK_HZ :=
    ENV_PERIOD_SECONDS_of_not_mem (by simp [hlist])
  rw [hdefault, hdefault, div_left_inj' hp.clock.ne', mul_right_inj' (by norm_num),
    max_one_eq_iff, BitVec.toNat_inj]

end Sys2Proof.Machine
end

section
/-!
The obligations on the voice bank and the audible output (spec/42_voice_bank.md): what APPLY writes,
the output and the oscillators across a FRAME, the silence before the first apply, and the bound
on the mix.
-/

namespace Sys2Proof.Machine

/-! ## APPLY (R159, R161, R162) -/

/-- The defensive clamp changes no target the decoder computes, under any parameters (R127). -/
theorem appliedRegs_targets (p : Params) (f : Fields) (l : Rat) (S : Block) :
    appliedRegs (targets p f l S) = targets p f l S := by
  have htone (X : Voice) : clamp01 (toneGain f l S X) = toneGain f l S X :=
    clamp01_of_mem (toneGain_mem f l S X)
  have hnoise : clamp01 (noiseGain f l S) = noiseGain f l S :=
    clamp01_of_mem (noiseGain_mem f l S)
  simp only [appliedRegs, targets_gain_get, htone]
  simp only [targets, hnoise]

/-- The history entry that a FRAME at `now` appends, in terms of the block after it. -/
theorem frameEffect_HIST_eq (p : Params) (F : Image) (now : Rat) (S : Block) :
    (frameEffect p F now S).HIST =
      S.HIST ++ [⟨now, (frameEffect p F now S).OUT.toVoiceRegs⟩] := rfl

/-- Settles O16: APPLY writes the clamped targets, and the clamp changes no target. -/
theorem frameAppliesItsTargets : Obligations.FrameAppliesItsTargets := by
  intro s F now htime
  refine ⟨_, exec_frame_next htime, rfl, rfl, fun X => Voices.get_ofFn _ X, rfl, rfl, rfl, rfl,
    frameEffect_HIST_eq s.params F now s.S, ?_⟩
  exact appliedRegs_targets s.params _ _ s.S

/-- Settles O29: the output sees the appended entry from its time on, and not before. -/
theorem applyIsAStepAtItsInstant : Obligations.ApplyIsAStepAtItsInstant := by
  intro s t F now _ htime h
  obtain rfl := exec_frame_eq htime h
  rw [State.withS_S, frameEffect_HIST_eq]
  exact ⟨fun u hu => OUT_at_append_of_le s.params s.S.HIST hu,
    fun u hu => OUT_at_append_of_lt s.params s.S.HIST hu⟩

/-! ## The oscillators (R167, R172) -/

/-- From any entry of a sorted history on, the session has started and a phase is defined. -/
theorem phi_of_mem {S : Block} (hsorted : histSorted S.HIST) {e : HistEntry} (he : e ∈ S.HIST)
    (X : Voice) {u : Rat} (hu : e.t ≤ u) :
    phi S X u = some (frac (S.OSC.get X + cyclesTo X u S.HIST)) := by
  cases hhist : S.HIST with
  | nil => simp [hhist] at he
  | cons a as =>
    rw [hhist] at hsorted he
    have hfirst : a.t ≤ e.t := by
      rcases List.mem_cons.mp he with rfl | he
      · exact le_refl _
      · exact (List.pairwise_cons.mp hsorted).1 e.t (List.mem_map_of_mem he)
    rw [phi_of_cons hhist, if_pos (hfirst.trans hu)]

/-- The last entry of a sorted history that is not empty is not later than one appended to it. -/
theorem exists_last_of_histSorted_append {hist : List HistEntry} {e : HistEntry}
    (hsorted : histSorted (hist ++ [e])) (hne : hist ≠ []) :
    ∃ front l, hist = front ++ [l] ∧ histSorted (front ++ [l]) ∧ l.t ≤ e.t := by
  obtain ⟨front, l, rfl⟩ := hist.eq_nil_or_concat'.resolve_left hne
  rw [histSorted, List.map_append, List.pairwise_append] at hsorted
  obtain ⟨hfront, -, hle⟩ := hsorted
  exact ⟨front, l, rfl, hfront, hle l.t (by simp) e.t (by simp)⟩

/-- Up to its time, an entry appended to a history that is not empty adds no cycles. -/
theorem cyclesTo_append_of_le (X : Voice) {hist : List HistEntry} {e : HistEntry}
    (hsorted : histSorted (hist ++ [e])) (hne : hist ≠ []) {u : Rat} (hu : u ≤ e.t) :
    cyclesTo X u (hist ++ [e]) = cyclesTo X u hist := by
  obtain ⟨front, l, rfl, hfront, hle⟩ := exists_last_of_histSorted_append hsorted hne
  rw [cyclesTo_append X u e l hle front hfront, min_eq_left hu, max_eq_left (sub_nonpos.mpr hu),
    mul_zero, add_zero]

/-- From its time on, the cycles grow at the frequency of the entry appended last. -/
theorem cyclesTo_append_add (X : Voice) {hist : List HistEntry} {e : HistEntry}
    (hsorted : histSorted (hist ++ [e])) {d : Rat} (hd : 0 ≤ d) :
    cyclesTo X (e.t + d) (hist ++ [e]) =
      cyclesTo X e.t (hist ++ [e]) + d * e.o.freq.get X := by
  rcases eq_or_ne hist [] with rfl | hne
  · simp [cyclesTo, max_eq_right hd, mul_comm]
  · rw [cyclesTo_append_of_le X hsorted hne (le_refl e.t)]
    obtain ⟨front, l, rfl, hfront, hle⟩ := exists_last_of_histSorted_append hsorted hne
    rw [cyclesTo_append X _ e l hle front hfront, min_eq_right (le_add_of_nonneg_right hd),
      add_sub_cancel_left, max_eq_right hd, mul_comm]

section AppendedEntry
variable {S S' : Block} {e : HistEntry} (X : Voice)

/-- At the session's first entry the phase is the start phase, and before it there is none. -/
theorem phi_of_first (hosc : 0 ≤ S'.OSC.get X ∧ S'.OSC.get X < 1) (hhist : S'.HIST = [e]) :
    phi S' X e.t = some (S'.OSC.get X) ∧ ∀ u, u < e.t → phi S' X u = none := by
  constructor
  · rw [phi_of_cons hhist, if_pos (le_refl e.t)]
    simp [cyclesTo, frac_of_mem hosc.1 hosc.2]
  · intro u hu
    rw [phi_of_cons hhist, if_neg hu.not_ge]

/-- Up to its time, an entry appended to a history that is not empty changes no phase. -/
theorem phi_append_of_le (hosc : S'.OSC = S.OSC) (hhist : S'.HIST = S.HIST ++ [e])
    (hsorted : histSorted S'.HIST) (hne : S.HIST ≠ []) {u : Rat} (hu : u ≤ e.t) :
    phi S' X u = phi S X u := by
  rw [hhist] at hsorted
  have hcycles := cyclesTo_append_of_le X hsorted hne hu
  obtain ⟨a, as, hS⟩ := List.exists_cons_of_ne_nil hne
  rw [hS, List.cons_append] at hcycles hhist
  rw [phi_of_cons hhist, phi_of_cons hS, hosc, hcycles]

/-- From the time of the entry appended last the phase runs on at that entry's frequency. -/
theorem phi_append_add (hhist : S'.HIST = S.HIST ++ [e]) (hsorted : histSorted S'.HIST) :
    ∃ ph, phi S' X e.t = some ph ∧
      ∀ d, 0 ≤ d → phi S' X (e.t + d) = some (Int.fract (ph + d * e.o.freq.get X)) := by
  have he : e ∈ S'.HIST := by simp [hhist]
  refine ⟨_, phi_of_mem hsorted he X (le_refl e.t), fun d hd => ?_⟩
  rw [phi_of_mem hsorted he X (le_add_of_nonneg_right hd), ← frac_eq_fract, frac_frac_add,
    add_assoc]
  rw [hhist] at hsorted ⊢
  rw [cyclesTo_append_add X hsorted hd]

end AppendedEntry

/-- Settles O30: a FRAME appends one entry to the history and leaves the start phases. -/
theorem oscillatorsRunOnAcrossAFrame : Obligations.OscillatorsRunOnAcrossAFrame := by
  intro s t F now X hinv htime h
  obtain rfl := exec_frame_eq htime h
  have hblock : (frameEffect s.params F now s.S).Inv s.params :=
    frameEffect_inv hinv.params hinv.block (earlierThanLastApply_eq_false.mpr htime)
  have hhist := frameEffect_HIST_eq s.params F now s.S
  refine ⟨fun hfirst => ?_, fun hne u hu => ?_, ?_⟩
  · rw [hfirst, List.nil_append] at hhist
    exact phi_of_first X (hblock.osc X) hhist
  · exact phi_append_of_le X (frameEffect_OSC s.params F now s.S) hhist hblock.sorted hne hu
  · exact phi_append_add X hhist hblock.sorted

/-! ## Before the first apply (R165, R173) -/

/-- Before every entry the output has its power-on values (R165). -/
theorem OUT_at_of_lt (p : Params) {hist : List HistEntry} {u : Rat} (h : ∀ e ∈ hist, u < e.t) :
    OUT_at p hist u = VoiceRegs.silent p := by
  have hnone : hist.filter (fun e => decide (e.t ≤ u)) = [] :=
    List.filter_eq_nil_iff.mpr fun e he => by simpa using h e he
  rw [OUT_at, hnone, List.getLast?_nil]

/-- Before every entry a tone oscillator has no phase (notes/assumptions/8.md). -/
theorem phi_of_lt {S : Block} (X : Voice) {u : Rat} (h : ∀ e ∈ S.HIST, u < e.t) :
    phi S X u = none := by
  cases hhist : S.HIST with
  | nil => simp [phi, hhist]
  | cons e es => rw [phi_of_cons hhist, if_neg (h e (by simp [hhist])).not_ge]

/-- Settles O31: the power-on output is silent, and a tone with no phase is 0. -/
theorem silentBeforeTheFirstApply : Obligations.SilentBeforeTheFirstApply := by
  intro w s u h
  have hOUT := OUT_at_of_lt s.params h
  have hamplitude (X : Voice) : amplitude s.params s.S.HIST X u = 0 := by
    simp [amplitude, hOUT, VoiceRegs.silent]
  have hnoise : noiseAmplitude s.params s.S.HIST u = 0 := by
    simp [noiseAmplitude, hOUT, VoiceRegs.silent]
  have htone (X : Voice) : toneSignal w s.params s.S X u = 0 := by
    rw [toneSignal, phi_of_lt X h]
  exact ⟨hamplitude, hnoise, by simp [mix, htone, noiseSignal, hnoise]⟩

/-! ## The bound on the mix (R170) -/

/-- The output is in range at every time: it is one of the history's, or the power-on output. -/
theorem OUT_at_inRange {p : Params} (hp : p.Valid) {hist : List HistEntry}
    (h : ∀ e ∈ hist, e.o.InRange) (u : Rat) : (OUT_at p hist u).InRange := by
  unfold OUT_at
  split
  next e he => exact h e (List.mem_filter.mp (List.mem_of_getLast? he)).1
  next => exact silent_inRange hp

section InRangeHistory
variable {p : Params} {hist : List HistEntry} (hp : p.Valid) (h : ∀ e ∈ hist, e.o.InRange)
include hp h

theorem abs_amplitude_le_one (X : Voice) (u : Rat) : |amplitude p hist X u| ≤ 1 := by
  obtain ⟨h0, h1⟩ := (OUT_at_inRange hp h u).gain X
  unfold amplitude
  split
  · rwa [abs_of_nonneg h0]
  · simp

theorem abs_noiseAmplitude_le_one (u : Rat) : |noiseAmplitude p hist u| ≤ 1 := by
  obtain ⟨h0, h1⟩ := (OUT_at_inRange hp h u).ngain
  unfold noiseAmplitude
  split
  · rwa [abs_of_nonneg h0]
  · simp

end InRangeHistory

/-- A product of two factors in [-1, 1] lies in [-1, 1]. -/
theorem abs_mul_le_one {a b : Rat} (ha : |a| ≤ 1) (hb : |b| ≤ 1) : |a * b| ≤ 1 := by
  rw [abs_mul]
  exact mul_le_one₀ ha (abs_nonneg b) hb

theorem abs_toneSignal_le_one {w : Signals} {p : Params} {S : Block} (hp : p.Valid)
    (hS : S.Inv p) (hw : ∀ x, |w.TONE_WAVE x| ≤ 1) (X : Voice) (u : Rat) :
    |toneSignal w p S X u| ≤ 1 := by
  unfold toneSignal
  split
  next ph _ =>
    exact abs_mul_le_one (abs_amplitude_le_one hp (fun e he => (hS.hist e he).1) X u) (hw ph)
  next => simp

theorem abs_noiseSignal_le_one {w : Signals} {p : Params} {S : Block} (hp : p.Valid)
    (hS : S.Inv p) {u : Rat} (hw : |filteredNoise w p S u| ≤ 1) : |noiseSignal w p S u| ≤ 1 :=
  abs_mul_le_one (abs_noiseAmplitude_le_one hp (fun e he => (hS.hist e he).1) u) hw

/-- Settles O32: each of the four summands is at most 1 in size. -/
theorem mixIsBoundedByFour : Obligations.MixIsBoundedByFour := by
  intro w s u hinv hwave hfilter
  have htone (X : Voice) : |toneSignal w s.params s.S X u| ≤ 1 :=
    abs_toneSignal_le_one hinv.params hinv.block hwave X u
  have hnoise : |noiseSignal w s.params s.S u| ≤ 1 :=
    abs_noiseSignal_le_one hinv.params hinv.block hfilter
  have hA := abs_le.mp (htone .A)
  have hB := abs_le.mp (htone .B)
  have hC := abs_le.mp (htone .C)
  have hN := abs_le.mp hnoise
  rw [mix, abs_le]
  constructor <;> linarith

end Sys2Proof.Machine
end

section
/-!
The obligations on the control commands (spec/43_control_commands.md): what USERCTL and RESET
write, that issuing one again changes nothing, from when a mute and a RESET act, and that only
FRAMEs are heard.
-/

namespace Sys2Proof.Machine

/-! ## Only FRAMEs are heard (R165 to R170, R182, R185) -/

/-- A command that issues no FRAME leaves the outputs and their history. -/
theorem exec_leaves_outputs {i : Instr} {s t : State} (h : exec i s = .next t)
    (hframe : i.opcode ≠ .FRAME) (hwake : i.opcode ≠ .WAKE) :
    t.S.OUT = s.S.OUT ∧ t.S.HIST = s.S.HIST := by
  have hhost (hop : i.opcode = .LOAD ∨ i.opcode = .PLAY ∨ i.opcode = .STOP) :
      t.S.OUT = s.S.OUT ∧ t.S.HIST = s.S.HIST := by
    rcases exec_load_play_stop_block h hop with ⟨mark, hS⟩ | ⟨-, -, hS⟩ <;> exact hS ▸ ⟨rfl, rfl⟩
  cases i with
  | frame F now => exact absurd rfl hframe
  | userctl mute vol => exact exec_userctl_eq h ▸ ⟨rfl, rfl⟩
  | reset => exact exec_reset_eq h ▸ ⟨rfl, rfl⟩
  | load result => exact hhost (.inl rfl)
  | play now => exact hhost (.inr (.inl rfl))
  | stop => exact hhost (.inr (.inr rfl))
  | wake now => exact absurd rfl hwake

/-- No command writes the parameters or the start phases (R51, R239). -/
theorem exec_params_OSC {i : Instr} {s t : State} (h : exec i s = .next t) :
    t.params = s.params ∧ t.S.OSC = s.S.OSC :=
  ((keptByOperations_continuesHistory s).exec h (.refl s)).2

section SameHistory
variable {S S' : Block} (hhist : S'.HIST = S.HIST) (hosc : S'.OSC = S.OSC)
include hhist hosc

/-- A phase depends on the block through the history and the start phases only (R167). -/
theorem phi_congr (X : Voice) (u : Rat) : phi S' X u = phi S X u := by
  simp only [phi, hhist, hosc]

/-- What is heard depends on the block through the history and the start phases only. -/
theorem mix_congr (w : Signals) (p : Params) (u : Rat) : mix w p S' u = mix w p S u := by
  simp only [mix, toneSignal, phi_congr hhist hosc, noiseSignal, filteredNoise, hhist]

end SameHistory

/-- Where its oscillator has a phase, a tone is its amplitude times the waveform there (R168). -/
theorem toneSignal_of_phi {S : Block} {X : Voice} {u ph : Rat} (h : phi S X u = some ph)
    (w : Signals) (p : Params) :
    toneSignal w p S X u = amplitude p S.HIST X u * w.TONE_WAVE ph := by
  simp only [toneSignal, h]

/-- From the `now` of a FRAME on, every oscillator has a phase (R167). -/
theorem exists_phi_of_frame {s t : State} {F : Image} {now u : Rat} (hinv : Inv s)
    (htime : timeOk s.S now) (h : exec (.frame F.toList now) s = .next t) (hu : now ≤ u)
    (X : Voice) : ∃ ph, phi t.S X u = some ph := by
  obtain ⟨-, -, ph, -, hrun⟩ := oscillatorsRunOnAcrossAFrame s t F now X hinv htime h
  have hphase := hrun (u - now) (sub_nonneg.mpr hu)
  rw [add_sub_cancel] at hphase
  exact ⟨_, hphase⟩

/-- Settles O33: what is heard is a function of the history and the start phases, which only a
FRAME's effect changes, and from its `now` on the output is the registers it applied. -/
theorem onlyFramesAreHeard : Obligations.OnlyFramesAreHeard := by
  refine ⟨fun s t i h hframe hwake => ?_, fun w s t F now u hinv htime h hu => ?_⟩
  · obtain ⟨hOUT, hhist⟩ := exec_leaves_outputs h hframe hwake
    obtain ⟨hparams, hosc⟩ := exec_params_OSC h
    exact ⟨hOUT, hhist, phi_congr hhist hosc, fun w u => hparams ▸ mix_congr hhist hosc w _ u⟩
  · have hOUT : OUT_at t.params t.S.HIST u = t.S.OUT.toVoiceRegs := by
      rw [(exec_params_OSC h).1]
      exact (applyIsAStepAtItsInstant s t F now hinv htime h).1 u hu
    refine ⟨fun X => ⟨by rw [amplitude, hOUT], ?_⟩, by rw [noiseAmplitude, hOUT], rfl, rfl⟩
    obtain ⟨ph, hph⟩ := exists_phi_of_frame hinv htime h hu X
    exact ⟨ph, hph, toneSignal_of_phi hph w t.params⟩

/-! ## USERCTL (R179, R182) -/

/-- Settles O34, field by field from what USERCTL writes. -/
theorem userctlWritesTheUserControls : Obligations.UserctlWritesTheUserControls := by
  intro s M vol
  refine ⟨rfl, s.withS (s.S.writeUserControls s.params (muteOfMask M) vol), rfl, rfl,
    fun V => ?_, rfl, rfl, rfl, rfl, rfl, rfl, rfl, rfl, rfl⟩
  rw [State.withS_S, Block.writeUserControls_UVOL, Paths.get_ofFn, clamp]

/-- The tone of a muted voice is off, whatever its fields (R115). -/
theorem toneOn_of_muted (f : Fields) {S : Block} {X : Voice} (h : S.MUTE.get X.path = true) :
    toneOn f S X = false := by
  simp [toneOn, h]

/-- A FRAME not earlier than the last apply leaves the tone of a muted voice off, with gain 0,
in the targets and in the outputs (R128). -/
theorem exec_frame_of_muted {s : State} {now : Rat} {X : Voice} (F : Image)
    (hmute : s.S.MUTE.get X.path = true) (htime : timeOk s.S now) :
    ∃ t, exec (.frame F.toList now) s = .next t ∧ t.S.TGT.on.get X = false ∧
      t.S.TGT.gain.get X = 0 ∧ t.S.OUT.on.get X = false ∧ t.S.OUT.gain.get X = 0 := by
  have hframe := exec_frame_next (F := F) htime
  have hoff : (frameEffect s.params F now s.S).TGT.on.get X = false :=
    (targets_on_get _ _ _ _ X).trans (toneOn_of_muted _ hmute)
  obtain ⟨hsilent, -⟩ := pathsThatAreOffHaveGainZero s _ F now htime hframe
  obtain ⟨htarget, houtput⟩ := hsilent X hoff
  exact ⟨_, hframe, hoff, htarget, hoff, houtput⟩

/-- Settles O36: USERCTL leaves the outputs, and the FRAME reads the mute that it wrote. -/
theorem muteActsFromTheNextFrame : Obligations.MuteActsFromTheNextFrame := by
  intro s t mute vol F now X h hmute htime
  obtain rfl := exec_userctl_eq h
  exact ⟨rfl, exec_frame_of_muted F hmute htime⟩

/-! ## RESET (R184 to R186) -/

/-- Settles O37, field by field from what RESET writes. -/
theorem resetRestoresTheDecoderSide : Obligations.ResetRestoresTheDecoderSide := by
  intro s
  refine ⟨s.blockReset, rfl, restoreDefaults_userControls s.params s.S, rfl, fun X => ?_,
    rfl, rfl, rfl, rfl, rfl, rfl, rfl, rfl, rfl, rfl⟩
  simp [VoiceRegs.silent]

/-- Settles O35: both commands write values that do not depend on what they overwrite. -/
theorem controlCommandsAreIdempotent : Obligations.ControlCommandsAreIdempotent := by
  intro s t i h hi
  cases i with
  | userctl mute vol => exact exec_userctl_eq h ▸ rfl
  | reset => exact exec_reset_eq h ▸ rfl
  | frame | load | play | stop | wake => simp [Instr.opcode] at hi

/-- An envelope that RESET left un-armed retriggers, whatever the shape and the period
(R132, R147). -/
theorem ENV_UPDATE_initial (p : Params) (shape : BitVec 4) (T now : Rat) :
    ENV_UPDATE p (Envelope.initial p) shape T now = envRetrigger shape T now :=
  ENV_UPDATE_eq_envRetrigger now (.inl (Option.some_ne_none shape).symm)

/-- A voice at full user volume that selects the envelope and passes has the envelope level
for its gain (R112 to R114). -/
theorem toneGain_of_envSel {f : Fields} {l : Rat} {S : Block} {X : Voice}
    (hl : 0 ≤ l ∧ l ≤ 1) (henv : f.envSel.get X = true) (hpass : tonePasses f S X = true)
    (hvol : S.UVOL.get X.path = 1) : toneGain f l S X = l := by
  simp [toneGain, channelLevel, henv, hpass, hvol, clamp01_of_mem hl]

/-- Settles O38: after RESET the envelope is un-armed, nothing is muted, and every volume
is 1. -/
theorem frameAfterResetRetriggers : Obligations.FrameAfterResetRetriggers := by
  intro s t F now h htime
  obtain rfl := exec_reset_eq h
  have hENV : (frameEffect s.params F now s.blockReset.S).ENV =
      envRetrigger (envShape s.params F)
        (ENV_PERIOD_SECONDS s.params (envPeriod s.params F)) now :=
    ENV_UPDATE_initial s.params _ _ _
  refine ⟨_, exec_frame_next htime, ?_⟩
  simp only [State.withS_S, State.blockReset_params, frameEffect_TGT_of_ENV, hENV,
    targets_gain_get]
  refine ⟨rfl, rfl, fun X henv htone => ?_⟩
  obtain ⟨hmute, hvol⟩ := restoreDefaults_userControls s.params s.S X.path
  exact toneGain_of_envSel ⟨zero_le_one, le_refl 1⟩ henv (tonePasses_iff.mpr ⟨hmute, htone⟩) hvol

end Sys2Proof.Machine
end

section
/-!
The obligations on the host sequencer (spec/45_host_sequencer.md): LOAD, PLAY and STOP, which
frames a WAKE sends and when, and the play of a whole Track under the host's one clock.
-/

namespace Sys2Proof.Machine

/-! ## LOAD, PLAY and STOP (R195 to R199, R209) -/

/-- Settles O39: a failed LOAD only reports its failure. -/
theorem failedLoadChangesNothing : Obligations.FailedLoadChangesNothing :=
  fun s kind => ⟨s.report (.loadFailed kind), rfl, rfl, rfl, rfl, rfl, rfl⟩

/-- LOAD of a Track with a legal rate installs it (R195). -/
theorem exec_load_of_rate_pos {track : Track} (s : State) (h : 0 < track.rate) :
    exec (.load (.ok track)) s = .next (s.installTrack track) := by
  simp only [exec, execLoad, if_neg (not_le.mpr h)]

/-- After a LOAD the new Track stands at frame 0 and tick time 0, Stopped (R197, D32). -/
theorem installTrack_H (s : State) (track : Track) :
    (s.installTrack track).H = ⟨some track, 0, 0, false⟩ := by
  simp only [State.installTrack, State.withH_H, stopPlayback_PLAYING]

/-- STOP resets the block where the sequencer was Playing (R199). -/
theorem stopPlayback_of_playing {s : State} (h : s.H.PLAYING = true) :
    s.stopPlayback = (s.withH { s.H with PLAYING := false }).blockReset := by
  rw [State.stopPlayback, if_pos h]

theorem stopPlayback_of_stopped {s : State} (h : s.H.PLAYING = false) : s.stopPlayback = s := by
  rw [State.stopPlayback, h, if_neg Bool.false_ne_true]

@[simp] theorem stopPlayback_params (s : State) : s.stopPlayback.params = s.params := by
  rcases stopPlayback_cases s with ⟨-, h⟩ | ⟨-, h⟩ <;> simp [h]

@[simp] theorem stopPlayback_port (s : State) : s.stopPlayback.port = s.port := by
  rcases stopPlayback_cases s with ⟨-, h⟩ | ⟨-, h⟩ <;> simp [h]

/-- Settles O40: LOAD is the full STOP, and then writes the host sequencer only. -/
theorem loadStopsThenInstallsTheTrack : Obligations.LoadStopsThenInstallsTheTrack := by
  intro s track hrate
  refine ⟨_, exec_load_of_rate_pos s hrate, installTrack_H s track, fun hp => ?_, fun hp => ?_,
    stopPlayback_params s, stopPlayback_port s⟩
  · exact ⟨s.blockReset, rfl, congrArg (·.S) (stopPlayback_of_playing hp)⟩
  · exact congrArg (·.S) (stopPlayback_of_stopped hp)

/-- PLAY from Stopped starts a Track that has a frame (R198). -/
theorem exec_play_of_hasFrames {s : State} (now : Rat) (hp : s.H.PLAYING = false)
    (hf : s.H.hasFrames = true) :
    exec (.play now) s = .next (s.withH { s.H with PLAYING := true, IDX := 0, NEXT := now }) := by
  simp only [exec, execPlay, hp, hf, if_true, Bool.false_eq_true, if_false]

theorem exec_play_of_playing {s : State} (now : Rat) (hp : s.H.PLAYING = true) :
    exec (.play now) s = .next s := by
  simp only [exec, execPlay, hp, if_true]

/-- PLAY with no frame to play is a no-op, Playing or Stopped (R209). -/
theorem exec_play_of_not_hasFrames {s : State} (now : Rat) (hf : s.H.hasFrames = false) :
    exec (.play now) s = .next s := by
  simp only [exec, execPlay, hf, Bool.false_eq_true, if_false, ite_self]

/-- Settles O42, by PLAY's equation for a Track that has a frame. -/
theorem playStartsAtFrameZero : Obligations.PlayStartsAtFrameZero := by
  intro s now track hp ht hne
  refine ⟨_, exec_play_of_hasFrames now hp (hasFrames_iff.mpr ⟨track, ht, hne⟩), ?_, rfl, rfl,
    rfl⟩
  simp only [State.withH_H, ht]

/-- Settles O43, by STOP's equation while Playing. -/
theorem stopEntersStoppedAndResets : Obligations.StopEntersStoppedAndResets :=
  fun s hp => ⟨(s.withH { s.H with PLAYING := false }).blockReset,
    congrArg Host.Outcome.next (stopPlayback_of_playing hp), rfl, ⟨s.blockReset, rfl, rfl⟩, rfl,
    rfl⟩

theorem exec_wake_of_stopped {s : State} (now : Rat) (hp : s.H.PLAYING = false) :
    exec (.wake now) s = .next s := by
  simp only [exec, execWake, hp, Bool.false_eq_true, if_false]

/-- Settles O44, each no-op by its command's equation. -/
theorem transportNoOpsChangeNothing : Obligations.TransportNoOpsChangeNothing := by
  intro s now
  have hnone (h : ∀ track, s.H.TRACK = some track → track.frames = []) :
      exec (.play now) s = .next s := by
    refine exec_play_of_not_hasFrames now (Bool.eq_false_iff.mpr fun hf => ?_)
    obtain ⟨track, ht, hne⟩ := hasFrames_iff.mp hf
    exact hne (h track ht)
  refine ⟨fun hp => ⟨?_, exec_wake_of_stopped now hp⟩, exec_play_of_playing now, fun ht => ?_,
    fun track ht hempty => ?_⟩
  · exact congrArg Host.Outcome.next (stopPlayback_of_stopped hp)
  · exact hnone fun track h => by simp [ht] at h
  · exact hnone fun track' h => by
      rw [ht, Option.some.injEq] at h
      exact h ▸ hempty

/-! ## What a WAKE sends (R200, R203, R204, R206, R207) -/

@[simp] theorem endOfTrack_TRACK (s : State) (n : Nat) : (s.endOfTrack n).H.TRACK = s.H.TRACK := by
  rcases endOfTrack_cases s n with ⟨-, h⟩ | ⟨-, h⟩ <;> simp [h]

@[simp] theorem endOfTrack_IDX (s : State) (n : Nat) : (s.endOfTrack n).H.IDX = s.H.IDX := by
  rcases endOfTrack_cases s n with ⟨-, h⟩ | ⟨-, h⟩ <;> simp [h]

@[simp] theorem endOfTrack_NEXT (s : State) (n : Nat) : (s.endOfTrack n).H.NEXT = s.H.NEXT := by
  rcases endOfTrack_cases s n with ⟨-, h⟩ | ⟨-, h⟩ <;> simp [h]

@[simp] theorem endOfTrack_params (s : State) (n : Nat) : (s.endOfTrack n).params = s.params := by
  rcases endOfTrack_cases s n with ⟨-, h⟩ | ⟨-, h⟩ <;> simp [h]

@[simp] theorem endOfTrack_port (s : State) (n : Nat) : (s.endOfTrack n).port = s.port := by
  rcases endOfTrack_cases s n with ⟨-, h⟩ | ⟨-, h⟩ <;> simp [h]

@[simp] theorem endOfTrack_OUT (s : State) (n : Nat) : (s.endOfTrack n).S.OUT = s.S.OUT := by
  rcases endOfTrack_cases s n with ⟨-, h⟩ | ⟨-, h⟩ <;> simp [h]

@[simp] theorem endOfTrack_HIST (s : State) (n : Nat) : (s.endOfTrack n).S.HIST = s.S.HIST := by
  rcases endOfTrack_cases s n with ⟨-, h⟩ | ⟨-, h⟩ <;> simp [h]

@[simp] theorem endOfTrack_REFUSED (s : State) (n : Nat) :
    (s.endOfTrack n).S.REFUSED = s.S.REFUSED := by
  rcases endOfTrack_cases s n with ⟨-, h⟩ | ⟨-, h⟩ <;> simp [h]

theorem endOfTrack_of_eq {s : State} {n : Nat} (h : s.H.IDX = n) :
    s.endOfTrack n = (s.withH { s.H with PLAYING := false }).blockReset := by
  rw [State.endOfTrack, if_pos h]

theorem endOfTrack_of_ne {s : State} {n : Nat} (h : s.H.IDX ≠ n) : s.endOfTrack n = s := by
  rw [State.endOfTrack, if_neg h]

/-- The state after the FRAMEs of the next `k` frames of a Track, all at `now`. -/
def State.issueNext (track : Track) (now : Rat) (k : Nat) (s : State) : State :=
  ((track.frames.drop s.H.IDX).take k).foldl (fun u F => u.issueFrame F now) s

@[simp] theorem issueNext_params (track : Track) (now : Rat) (k : Nat) (s : State) :
    (s.issueNext track now k).params = s.params := (issueFrames_H now _ s).2

/-- The same, with the frame index and the tick time moved on by `k` frames. -/
def State.sendNext (track : Track) (now : Rat) (k : Nat) (s : State) : State :=
  (s.issueNext track now k).withH
    { s.H with IDX := s.H.IDX + k, NEXT := s.H.NEXT + (k : Rat) / track.rate }

/-- A WAKE at `now` takes `s`, Playing `track`, to `t` and sends `k` frames: those that are due,
and no more. -/
structure WakeSends (track : Track) (now : Rat) (k : Nat) (s t : State) : Prop where
  inTrack : s.H.IDX + k ≤ track.frames.length
  due : ∀ j < k, s.H.NEXT + (j : Rat) / track.rate < now + s.params.LEAD_WINDOW
  notDue : s.H.IDX + k < track.frames.length →
    now + s.params.LEAD_WINDOW ≤ s.H.NEXT + (k : Rat) / track.rate
  result : t = (s.sendNext track now k).endOfTrack track.frames.length

/-- A WAKE while Playing completes and sends some number of frames. -/
theorem exec_wake_sends {s : State} {track : Track} (now : Rat) (hp : s.H.PLAYING = true)
    (ht : s.H.TRACK = some track) (hidx : s.H.IDX ≤ track.frames.length) :
    ∃ t k, exec (.wake now) s = .next t ∧ WakeSends track now k s t := by
  obtain ⟨k, hk, heq, hdue, hnotDue⟩ := exec_wake_playing now hp ht
  rw [List.length_drop] at hk hnotDue
  exact ⟨_, k, heq, by omega, hdue, fun hlt => hnotDue (by omega), rfl⟩

namespace WakeSends

/-- The state that a WAKE while Playing answers is one it sends frames to. -/
theorem of_exec {s t : State} {track : Track} {now : Rat} (hp : s.H.PLAYING = true)
    (ht : s.H.TRACK = some track) (hidx : s.H.IDX ≤ track.frames.length)
    (h : exec (.wake now) s = .next t) : ∃ k, WakeSends track now k s t := by
  obtain ⟨t', k, h', hsends⟩ := exec_wake_sends now hp ht hidx
  rw [h, Host.Outcome.next.injEq] at h'
  exact ⟨k, h' ▸ hsends⟩

variable {s t : State} {track : Track} {now : Rat} {k : Nat}

theorem track_eq (h : WakeSends track now k s t) : t.H.TRACK = s.H.TRACK := by
  rw [h.result, endOfTrack_TRACK]; rfl

theorem idx (h : WakeSends track now k s t) : t.H.IDX = s.H.IDX + k := by
  rw [h.result, endOfTrack_IDX]; rfl

theorem next (h : WakeSends track now k s t) :
    t.H.NEXT = s.H.NEXT + (k : Rat) / track.rate := by
  rw [h.result, endOfTrack_NEXT]; rfl

theorem params (h : WakeSends track now k s t) : t.params = s.params := by
  rw [h.result, endOfTrack_params]; exact issueNext_params track now k s

theorem port (h : WakeSends track now k s t) : t.port = (s.issueNext track now k).port := by
  rw [h.result, endOfTrack_port]; rfl

/-- Where a frame is left, the sequencer stays Playing (R200). -/
theorem playing (h : WakeSends track now k s t) (hp : s.H.PLAYING = true)
    (hlt : s.H.IDX + k < track.frames.length) :
    t.H.PLAYING = true ∧ t.S = (s.issueNext track now k).S := by
  rw [h.result, endOfTrack_of_ne (s := s.sendNext track now k) hlt.ne]
  exact ⟨hp, rfl⟩

/-- Where none is left, it enters Stopped and resets the block (R203). -/
theorem stopped (h : WakeSends track now k s t) (hall : s.H.IDX + k = track.frames.length) :
    t.H.PLAYING = false ∧ t.S = (s.issueNext track now k).S.restoreDefaults s.params := by
  rw [h.result, endOfTrack_of_eq (s := s.sendNext track now k) hall]
  exact ⟨rfl, congrArg (Block.restoreDefaults · _) (issueNext_params track now k s)⟩

/-- Of the frames left, the `j`-th is sent exactly where its tick time less the lead window is
before `now` (R207). -/
theorem lt_iff (h : WakeSends track now k s t) (hrate : 0 < track.rate) {j : Nat} :
    j < k ↔ s.H.IDX + j < track.frames.length ∧
      s.H.NEXT + (j : Rat) / track.rate < now + s.params.LEAD_WINDOW := by
  have hin := h.inTrack
  refine ⟨fun hj => ⟨by omega, h.due j hj⟩, fun ⟨hj, hdue⟩ => ?_⟩
  by_contra hkj
  have hle : (k : Rat) / track.rate ≤ (j : Rat) / track.rate :=
    div_le_div_of_nonneg_right (by exact_mod_cast not_lt.mp hkj) hrate.le
  linarith [h.notDue (by omega)]

/-- The number of frames sent (R204). -/
theorem count (h : WakeSends track now k s t) (hrate : 0 < track.rate) :
    k = min (track.frames.length - s.H.IDX)
      ⌈(now + s.params.LEAD_WINDOW - s.H.NEXT) * track.rate⌉₊ := by
  refine eq_of_forall_lt_iff fun j => ?_
  rw [h.lt_iff hrate, lt_min_iff, Nat.lt_ceil, ← div_lt_iff₀ hrate, lt_sub_iff_add_lt']
  exact and_congr_left' (by omega)

/-- A WAKE at which the last frame is due sends every frame left. -/
theorem all_sent (h : WakeSends track now k s t) (hrate : 0 < track.rate)
    (hleft : s.H.IDX < track.frames.length)
    (hdue : s.H.NEXT + ((track.frames.length - 1 - s.H.IDX : Nat) : Rat) / track.rate <
      now + s.params.LEAD_WINDOW) : s.H.IDX + k = track.frames.length := by
  have hlast : track.frames.length - 1 - s.H.IDX < k := (h.lt_iff hrate).mpr ⟨by omega, hdue⟩
  have hin := h.inTrack
  omega

end WakeSends

/-- Settles O45, by what a WAKE that sends `k` frames does. -/
theorem wakeSendsTheDueFrames : Obligations.WakeSendsTheDueFrames := by
  refine fun s now => ⟨exec_wake_of_stopped now, fun track hp ht hidx => ?_⟩
  obtain ⟨t, k, hexec, h⟩ := exec_wake_sends now hp ht hidx
  refine ⟨t, k, hexec, h.inTrack, h.due, h.notDue, h.track_eq, h.idx, h.next, h.params, h.port,
    h.playing hp, fun hall => ⟨(h.stopped hall).1, _, rfl, ?_⟩⟩
  rw [(h.stopped hall).2, ← issueNext_params track now k s]
  rfl

/-- Settles O46: the number of frames sent, read in the integers. -/
theorem wakeBatchSize : Obligations.WakeBatchSize := by
  intro s t now track hp ht hidx hrate hexec
  obtain ⟨k, h⟩ := WakeSends.of_exec hp ht hidx hexec
  have hcount : (t.H.IDX : Int) = (s.H.IDX : Int) +
      min ((track.frames.length : Int) - (s.H.IDX : Int))
        (max 0 ⌈(now + s.params.LEAD_WINDOW - s.H.NEXT) * track.rate⌉) := by
    rw [h.idx, h.count hrate, ← Int.ceil_toNat]
    omega
  refine ⟨hcount, fun hlead hnow => ?_⟩
  have hle : ⌈(now + s.params.LEAD_WINDOW - s.H.NEXT) * track.rate⌉ ≤
      ⌈s.params.LEAD_WINDOW * track.rate⌉ :=
    Int.ceil_le_ceil (mul_le_mul_of_nonneg_right (by linarith) hrate.le)
  have hnonneg : 0 ≤ ⌈s.params.LEAD_WINDOW * track.rate⌉ :=
    Int.ceil_nonneg (mul_nonneg hlead hrate.le)
  omega

/-- Settles O48: both move on by the number of frames sent. -/
theorem tickTimeFollowsThePlayTime : Obligations.TickTimeFollowsThePlayTime := by
  intro s t tp now track hp ht hrate hidx hnext hexec
  obtain ⟨k, h⟩ := WakeSends.of_exec hp ht hidx hexec
  rw [h.next, h.idx, hnext]
  refine ⟨by push_cast; ring, ?_, Nat.le_add_right _ k, h.inTrack⟩
  exact le_add_of_nonneg_right (div_nonneg k.cast_nonneg hrate.le)

/-- Settles O49: frame `i` is the one at `i - IDX` among those left, where it is left. -/
theorem framesAreReleasedByTickTime : Obligations.FramesAreReleasedByTickTime := by
  intro s t tp now track i hp ht hrate hidx hnext hexec hi
  obtain ⟨k, h⟩ := WakeSends.of_exec hp ht hidx hexec
  rw [h.idx]
  rcases lt_or_ge i s.H.IDX with hsent | hleft
  · exact iff_of_true (Nat.lt_add_right k hsent) (.inl hsent)
  · obtain ⟨j, rfl⟩ := Nat.exists_eq_add_of_le hleft
    have htick : tp + ((s.H.IDX + j : Nat) : Rat) / track.rate =
        s.H.NEXT + (j : Rat) / track.rate := by
      rw [hnext]; push_cast; ring
    rw [Nat.add_lt_add_iff_left, h.lt_iff hrate, htick, sub_lt_iff_lt_add]
    simp [hi]

end Sys2Proof.Machine
end

section
/-!
The obligations on the host sequencer (spec/45_host_sequencer.md), continued: what the FRAMEs of
a WAKE do to the block where time does not go backwards, sessions on one forward clock, and the
play of a whole Track.
-/

namespace Sys2Proof.Machine

/-! ## FRAMEs in order (R200, R203, R210) -/

/-- The block after the FRAMEs of a list of images, each at its own time, none refused. -/
def Block.afterFrames (p : Params) (es : List (Image × Rat)) (S : Block) : Block :=
  es.foldl (fun S e => frameEffect p e.1 e.2 S) S

namespace Block

theorem afterFrames_append (p : Params) (es es' : List (Image × Rat)) (S : Block) :
    S.afterFrames p (es ++ es') = (S.afterFrames p es).afterFrames p es' :=
  List.foldl_append

@[simp] theorem afterFrames_REFUSED (p : Params) (es : List (Image × Rat)) :
    ∀ S : Block, (S.afterFrames p es).REFUSED = S.REFUSED := by
  induction es with
  | nil => exact fun _ => rfl
  | cons e es ih => exact fun S => ih (frameEffect p e.1 e.2 S)

/-- Every FRAME appends one history entry (R159). -/
theorem afterFrames_HIST_length (p : Params) (es : List (Image × Rat)) :
    ∀ S : Block, (S.afterFrames p es).HIST.length = S.HIST.length + es.length := by
  induction es with
  | nil => exact fun _ => rfl
  | cons e es ih =>
    intro S
    rw [afterFrames, List.foldl_cons, ← afterFrames, ih, frameEffect_HIST, List.length_append,
      List.length_singleton, List.length_cons]
    omega

end Block

/-- A FRAME at `u` is the last apply, so what is not earlier than `u` is not earlier than it. -/
theorem timeOk_frameEffect (p : Params) (F : Image) (S : Block) {u now : Rat} (h : u ≤ now) :
    timeOk (frameEffect p F u S) now := fun t0 ht0 => by
  rw [frameEffect_OUT_time, Option.some.injEq] at ht0
  exact ht0 ▸ h

/-- FRAMEs none of which is later than `now` leave the last apply not later than it. -/
theorem timeOk_afterFrames (p : Params) {now : Rat} (es : List (Image × Rat)) :
    ∀ {S : Block}, timeOk S now → (∀ e ∈ es, e.2 ≤ now) → timeOk (S.afterFrames p es) now := by
  induction es with
  | nil => exact fun h _ => h
  | cons e es ih =>
    intro S _ hle
    rw [List.forall_mem_cons] at hle
    exact ih (timeOk_frameEffect p e.1 S hle.1) hle.2

/-- The last apply is that of the last FRAME. -/
theorem afterFrames_OUT_time (p : Params) {now : Rat} {es : List (Image × Rat)} (hne : es ≠ [])
    (hnow : ∀ e ∈ es, e.2 = now) (S : Block) : (S.afterFrames p es).OUT.time = some now := by
  obtain ⟨front, last, rfl⟩ := List.eq_nil_or_concat' es |>.resolve_left hne
  rw [Block.afterFrames_append]
  exact congrArg some (hnow last (by simp))

/-- The next `k` frames of a Track from frame `i` on, each at the time `now`. -/
def framesAt (track : Track) (i k : Nat) (now : Rat) : List (Image × Rat) :=
  ((track.frames.drop i).take k).map fun F => (F, now)

theorem time_of_mem_framesAt {track : Track} {i k : Nat} {now : Rat} :
    ∀ e ∈ framesAt track i k now, e.2 = now := fun e he => by
  obtain ⟨F, -, rfl⟩ := List.mem_map.mp he
  rfl

theorem length_framesAt {track : Track} {i k : Nat} (now : Rat)
    (h : i + k ≤ track.frames.length) : (framesAt track i k now).length = k := by
  simp only [framesAt, List.length_map, List.length_take, List.length_drop]
  omega

/-- Where time does not go backwards, none of the FRAMEs that a WAKE issues is refused. -/
theorem issueNext_ok {s : State} (track : Track) {now : Rat} (k : Nat) (h : timeOk s.S now) :
    s.issueNext track now k =
      s.withS (s.S.afterFrames s.params (framesAt track s.H.IDX k now)) := by
  rw [State.issueNext, issueFrames_ok _ h, Block.afterFrames, framesAt, List.foldl_map]

/-- While Playing a frame is left to send (R206). -/
theorem Sequencer.Inv.idx_lt {H : Sequencer} {track : Track} (h : H.Inv) (hp : H.PLAYING = true)
    (ht : H.TRACK = some track) : H.IDX < track.frames.length := by
  obtain ⟨track', ht', hlt⟩ := h.playing hp
  rw [ht, Option.some.injEq] at ht'
  exact ht' ▸ hlt

/-- Settles O47: the WAKE sends every frame left, the last of them at its `now`, and the reset
that follows keeps the outputs and the history. -/
theorem endOfTrackHoldsTheOutput : Obligations.EndOfTrackHoldsTheOutput := by
  intro s now track hinv hp ht htime hdue
  have hleft := hinv.host.idx_lt hp ht
  obtain ⟨t, k, hexec, h⟩ := exec_wake_sends now hp ht hleft.le
  have hall := h.all_sent (hinv.host.rate track ht) hleft hdue
  obtain ⟨hstop, hblock⟩ := h.stopped hall
  rw [issueNext_ok track k htime, State.withS_S] at hblock
  have hlen := length_framesAt now hall.le
  have hOUT : t.S.OUT.time = some now := by
    rw [hblock]
    refine afterFrames_OUT_time _ (List.ne_nil_of_length_pos ?_) time_of_mem_framesAt _
    omega
  refine ⟨t, hexec, hstop, h.idx.trans hall, ?_, ?_, ?_, hOUT, ?_, ?_⟩
  · exact hblock ▸ restoreDefaults_userControls _ _
  · rw [hblock, Block.restoreDefaults_ENV]
  · rw [hblock, Block.restoreDefaults_TGT]
  · rw [hblock, Block.restoreDefaults_HIST, Block.afterFrames_HIST_length, hlen]
    omega
  · have hSinv := (exec_inv hexec hinv).block
    obtain ⟨e, he, -⟩ := Option.map_eq_some_iff.mp (hSinv.time.symm.trans hOUT)
    rw [hSinv.last, he]
    rfl

/-! ## Sessions on one forward clock (R160, R193) -/

/-- A WAKE not earlier than the last apply is refused nowhere. -/
theorem exec_wake_of_timeOk {s t : State} {now : Rat} (htime : timeOk s.S now)
    (h : exec (.wake now) s = .next t) :
    t.S.REFUSED = s.S.REFUSED ∧ t.port = s.port ∧ timeOk t.S now := by
  rcases exec_wake_cases h with rfl | ⟨track, k, -, -, -, rfl⟩
  · exact ⟨rfl, rfl, htime⟩
  · have hsent := issueNext_ok track k htime
    rw [State.issueNext] at hsent
    have hlast : timeOk (s.S.afterFrames s.params (framesAt track s.H.IDX k now)) now :=
      timeOk_afterFrames _ _ htime fun e he => (time_of_mem_framesAt e he).le
    rw [hsent, endOfTrack_REFUSED, endOfTrack_port, timeOk, endOfTrack_OUT]
    exact ⟨Block.afterFrames_REFUSED _ _ _, rfl, hlast⟩

/-- From the invariant every command answers a next state (R216, R231). -/
theorem exec_next_of_inv {s : State} (hs : Inv s) (i : Instr) : ∃ t, exec i s = .next t := by
  cases i with
  | frame F now =>
    by_cases hlen : F.length = 14
    · obtain ⟨img, -, rfl⟩ := imageOf?_eq_some hlen
      exact ⟨_, exec_frame_toList s img now⟩
    · exact ⟨_, exec_frame_of_length_ne now s hlen⟩
  | userctl mute vol => exact ⟨_, rfl⟩
  | reset => exact ⟨_, rfl⟩
  | load result =>
    cases result with
    | fail kind => exact ⟨_, rfl⟩
    | ok track =>
      rcases le_or_gt track.rate 0 with h | h
      · exact ⟨_, exec_load_of_rate_nonpos s h⟩
      · exact ⟨_, exec_load_of_rate_pos s h⟩
  | play now =>
    cases hp : s.H.PLAYING with
    | true => exact ⟨_, exec_play_of_playing now hp⟩
    | false =>
      cases hf : s.H.hasFrames with
      | true => exact ⟨_, exec_play_of_hasFrames now hp hf⟩
      | false => exact ⟨_, exec_play_of_not_hasFrames now hf⟩
  | stop => exact ⟨_, rfl⟩
  | wake now =>
    cases hp : s.H.PLAYING with
    | false => exact ⟨_, exec_wake_of_stopped now hp⟩
    | true =>
      obtain ⟨track, ht, hlt⟩ := hs.host.playing hp
      obtain ⟨t, -, hexec, -⟩ := exec_wake_sends now hp ht hlt.le
      exact ⟨t, hexec⟩

/-- A command that carries no time, or one not earlier than the last apply, reports no
TimeReversal. -/
theorem exec_reports_of_timeOk {i : Instr} {s t : State} (h : exec i s = .next t)
    (hnow : ∀ now, nowOf i = some now → timeOk s.S now) :
    ∃ new, t.port.reports = s.port.reports ++ new ∧ Report.refused .TimeReversal ∉ new := by
  have hsilent {u : State} (hu : u.port = s.port) :
      ∃ new, u.port.reports = s.port.reports ++ new ∧ Report.refused .TimeReversal ∉ new :=
    ⟨[], by rw [hu, List.append_nil], List.not_mem_nil⟩
  cases i with
  | frame F now =>
    rcases exec_frame_cases h with rfl | ⟨img, rfl⟩
    · exact ⟨_, rfl, by simp⟩
    · rw [issueFrame_ok img (earlierThanLastApply_eq_false.mpr (hnow now rfl))]
      exact hsilent rfl
  | userctl mute vol => exact exec_userctl_eq h ▸ hsilent rfl
  | reset => exact exec_reset_eq h ▸ hsilent rfl
  | load result =>
    rcases exec_load_cases h with ⟨kind, rfl⟩ | rfl | ⟨track, -, rfl⟩
    · exact ⟨_, rfl, by simp⟩
    · exact ⟨_, rfl, by simp⟩
    · exact hsilent (stopPlayback_port s)
  | play now => rcases exec_play_cases h with rfl | ⟨-, -, rfl⟩ <;> exact hsilent rfl
  | stop => exact exec_stop_eq h ▸ hsilent (stopPlayback_port s)
  | wake now =>
    obtain ⟨-, hport, -⟩ := exec_wake_of_timeOk (hnow now rfl) h
    exact hsilent hport

/-- A time that is not earlier than the last apply, nor than the command's own, is not earlier
than the last apply after the command. -/
theorem exec_timeOk {i : Instr} {s t : State} {later : Rat} (h : exec i s = .next t)
    (hnow : ∀ now, nowOf i = some now → timeOk s.S now ∧ now ≤ later) (hs : timeOk s.S later) :
    timeOk t.S later := by
  have hsame (hframe : i.opcode ≠ .FRAME) (hwake : i.opcode ≠ .WAKE) : timeOk t.S later := by
    rw [timeOk, (exec_leaves_outputs h hframe hwake).1]
    exact hs
  cases i with
  | frame F now =>
    obtain ⟨htime, hle⟩ := hnow now rfl
    rcases exec_frame_cases h with rfl | ⟨img, rfl⟩
    · exact hs
    · rw [issueFrame_ok img (earlierThanLastApply_eq_false.mpr htime)]
      exact timeOk_frameEffect _ _ _ hle
  | wake now =>
    obtain ⟨htime, hle⟩ := hnow now rfl
    obtain ⟨-, -, hlast⟩ := exec_wake_of_timeOk htime h
    exact fun t0 ht0 => (hlast t0 ht0).trans hle
  | userctl | reset | load | play | stop =>
    exact hsame (by simp [Instr.opcode]) (by simp [Instr.opcode])

theorem OnClock.tail {clock : AudioClock} {c : Call} {cs : List Call}
    (h : OnClock clock (c :: cs)) : OnClock clock cs :=
  ⟨h.ordered.of_cons, fun c' hc' => h.reads c' (List.mem_cons_of_mem c hc')⟩

/-- A later call reads a time that is not earlier. -/
theorem OnClock.reading_le {clock : AudioClock} {c : Call} {cs : List Call}
    (h : OnClock clock (c :: cs)) {c' : Call} (hc' : c' ∈ cs) :
    clock.reading c.time ≤ clock.reading c'.time :=
  clock.mono _ _ ((List.pairwise_cons.mp h.ordered).1 _ (List.mem_map_of_mem hc'))

/-- A session on one forward clock runs to its end and reports no TimeReversal, by induction on
its calls: every later reading stays not earlier than the last apply. -/
theorem runCalls_onClock (clock : AudioClock) : ∀ (calls : List Call) (s : State),
    OnClock clock calls → Inv s → (∀ c ∈ calls, timeOk s.S (clock.reading c.time)) →
    ∃ t new, runCalls calls s = some t ∧ t.port.reports = s.port.reports ++ new ∧
      Report.refused .TimeReversal ∉ new
  | [], s, _, _, _ => ⟨s, [], rfl, (List.append_nil _).symm, List.not_mem_nil⟩
  | c :: cs, s, hclock, hs, htime => by
    have hnow : ∀ now, nowOf c.command = some now →
        timeOk s.S now ∧ now = clock.reading c.time := fun now hn => by
      have hread := hclock.reads c List.mem_cons_self now hn
      exact ⟨hread ▸ htime c List.mem_cons_self, hread⟩
    obtain ⟨u, hexec⟩ := exec_next_of_inv hs c.command
    obtain ⟨new, hnew, hno⟩ := exec_reports_of_timeOk hexec fun now hn => (hnow now hn).1
    have hlater : ∀ c' ∈ cs, timeOk u.S (clock.reading c'.time) := fun c' hc' =>
      exec_timeOk hexec
        (fun now hn => ⟨(hnow now hn).1, (hnow now hn).2 ▸ hclock.reading_le hc'⟩)
        (htime c' (List.mem_cons_of_mem c hc'))
    obtain ⟨t, new', hrun, hnew', hno'⟩ :=
      runCalls_onClock clock cs u hclock.tail (exec_inv hexec hs) hlater
    refine ⟨t, new ++ new', ?_, by rw [hnew', hnew, List.append_assoc], ?_⟩
    · rw [runCalls, hexec]
      exact hrun
    · exact fun hmem => (List.mem_append.mp hmem).elim hno hno'

/-- Settles O50: one WAKE, and a session by induction on its calls. -/
theorem forwardClockIsNeverRefused : Obligations.ForwardClockIsNeverRefused :=
  ⟨fun _ _ _ htime h => exec_wake_of_timeOk htime h, runCalls_onClock⟩

/-! ## The play of a whole Track (R202, R205) -/

/-- From the block `S₀` to the block `S` the first `n` frames were sent in order, at times that
do not decrease and are not later than `last`. -/
def SentInOrder (p : Params) (frames : List Image) (S₀ : Block) (n : Nat) (last : Rat)
    (S : Block) : Prop :=
  ∃ nows : List Rat, nows.length = n ∧ nows.Pairwise (· ≤ ·) ∧ (∀ u ∈ nows, u ≤ last) ∧
    S = S₀.afterFrames p ((frames.take n).zip nows)

namespace SentInOrder

variable {p : Params} {S₀ S : Block} {n : Nat} {last now : Rat}

theorem zero (p : Params) (frames : List Image) (S : Block) (last : Rat) :
    SentInOrder p frames S 0 last S :=
  ⟨[], rfl, List.Pairwise.nil, by simp, rfl⟩

/-- Nothing was applied later than `last`. -/
theorem timeOk {frames : List Image} (h : SentInOrder p frames S₀ n last S)
    (hs : timeOk S₀ last) : timeOk S last := by
  obtain ⟨nows, -, -, hle, rfl⟩ := h
  exact timeOk_afterFrames p _ hs fun e he => hle e.2 (List.of_mem_zip he).2

theorem HIST_length {frames : List Image} (h : SentInOrder p frames S₀ n last S)
    (hn : n ≤ frames.length) : S.HIST.length = S₀.HIST.length + n := by
  obtain ⟨nows, hlen, -, -, rfl⟩ := h
  rw [Block.afterFrames_HIST_length, List.length_zip, List.length_take, hlen]
  omega

theorem mono {frames : List Image} (h : SentInOrder p frames S₀ n last S) (hle : last ≤ now) :
    SentInOrder p frames S₀ n now S := by
  obtain ⟨nows, hlen, hsorted, hnows, hS⟩ := h
  exact ⟨nows, hlen, hsorted, fun u hu => (hnows u hu).trans hle, hS⟩

/-- The next `k` frames are sent at `last`, the same for all of them. -/
theorem send {track : Track} (h : SentInOrder p track.frames S₀ n last S) {k : Nat}
    (hk : n + k ≤ track.frames.length) :
    SentInOrder p track.frames S₀ (n + k) last
      (S.afterFrames p (framesAt track n k last)) := by
  obtain ⟨nows, hlen, hsorted, hle, rfl⟩ := h
  have hzip : (track.frames.take (n + k)).zip (nows ++ List.replicate k last) =
      (track.frames.take n).zip nows ++ framesAt track n k last := by
    rw [List.take_add, List.zip_append (by simp only [List.length_take]; omega)]
    congr 1
    refine List.ext_getElem (by simp [framesAt]) fun i _ _ => by simp [framesAt]
  refine ⟨nows ++ List.replicate k last, by simp [hlen], ?_, ?_, ?_⟩
  · rw [List.pairwise_append]
    refine ⟨hsorted, List.pairwise_replicate.mpr (.inr le_rfl), fun u hu v hv => ?_⟩
    exact List.eq_of_mem_replicate hv ▸ hle u hu
  · intro u hu
    rcases List.mem_append.mp hu with hu | hu
    · exact hle u hu
    · exact (List.eq_of_mem_replicate hu).le
  · rw [hzip, Block.afterFrames_append]

end SentInOrder

theorem wakes_succ {times : Nat → Rat} {m : Nat} {s u t : State} (hrun : wakes times m s = some u)
    (hexec : exec (.wake (times m)) u = .next t) : wakes times (m + 1) s = some t := by
  simp only [wakes, hrun, hexec]

/-- After `m` WAKEs at `times` from `s`, the state `u` still plays `track`: the frames before its
frame index were sent, each once and in order, and at every WAKE before it was Playing. -/
structure StillPlaying (times : Nat → Rat) (track : Track) (s : State) (m : Nat) (u : State) :
    Prop where
  run : wakes times m s = some u
  playing : u.H.PLAYING = true
  track_eq : u.H.TRACK = some track
  idx : u.H.IDX < track.frames.length
  next : u.H.NEXT = s.H.NEXT + (u.H.IDX : Rat) / track.rate
  params : u.params = s.params
  sent : SentInOrder s.params track.frames s.S u.H.IDX (times m) u.S
  before : ∀ m' < m, ∃ u', wakes times m' s = some u' ∧ u'.H.PLAYING = true

namespace StillPlaying

variable {times : Nat → Rat} {track : Track} {s u t : State} {m k : Nat}

theorem upTo (h : StillPlaying times track s m u) :
    ∀ m' < m + 1, ∃ u', wakes times m' s = some u' ∧ u'.H.PLAYING = true := fun m' hm' => by
  rcases Nat.lt_succ_iff_lt_or_eq.mp hm' with hlt | rfl
  · exact h.before m' hlt
  · exact ⟨u, h.run, h.playing⟩

/-- The block after the FRAMEs of the next WAKE. -/
theorem sent_issueNext (h : StillPlaying times track s m u) (htime : timeOk s.S (times m))
    (hk : u.H.IDX + k ≤ track.frames.length) :
    SentInOrder s.params track.frames s.S (u.H.IDX + k) (times m)
      (u.issueNext track (times m) k).S := by
  rw [issueNext_ok track k (h.sent.timeOk htime), h.params]
  exact h.sent.send hk

/-- A WAKE that leaves a frame unsent plays on. -/
theorem wake_left (h : StillPlaying times track s m u) (hfair : FairWakes times)
    (htime : timeOk s.S (times m)) (hexec : exec (.wake (times m)) u = .next t)
    (hsends : WakeSends track (times m) k u t) (hlt : u.H.IDX + k < track.frames.length) :
    StillPlaying times track s (m + 1) t := by
  obtain ⟨hp, hblock⟩ := hsends.playing h.playing hlt
  exact {
    run := wakes_succ h.run hexec
    playing := hp
    track_eq := hsends.track_eq.trans h.track_eq
    idx := hsends.idx ▸ hlt
    next := by
      rw [hsends.next, hsends.idx, h.next]
      push_cast
      ring
    params := hsends.params.trans h.params
    sent := by
      rw [hblock, hsends.idx]
      exact (h.sent_issueNext htime hlt.le).mono (hfair.mono m (m + 1) m.le_succ)
    before := h.upTo }

/-- A WAKE that leaves no frame unsent completes the Track. -/
theorem wake_all (h : StillPlaying times track s m u) (htime : timeOk s.S (times m))
    (hexec : exec (.wake (times m)) u = .next t)
    (hsends : WakeSends track (times m) k u t) (hall : u.H.IDX + k = track.frames.length) :
    Completes times track s := by
  obtain ⟨hp, hblock⟩ := hsends.stopped hall
  have hsent := h.sent_issueNext htime hall.le
  rw [hall] at hsent
  have hlength := hsent.HIST_length le_rfl
  obtain ⟨nows, hlen, hsorted, -, hS⟩ := hsent
  rw [List.take_length] at hS
  refine ⟨m + 1, t, nows, wakes_succ h.run hexec, hp, hsends.idx.trans hall, hlen, hsorted,
    h.upTo, ?_, ?_⟩
  · rw [hblock, Block.restoreDefaults_HIST, hlength]
  · rw [hblock, hS, h.params]
    rfl

end StillPlaying

section
variable {s : State} {times : Nat → Rat} {track : Track} (hfair : FairWakes times)
  (htime : timeOk s.S (times 0))
include hfair htime

theorem FairWakes.timeOk (m : Nat) : timeOk s.S (times m) :=
  fun t0 ht0 => (htime t0 ht0).trans (hfair.mono 0 m m.zero_le)

/-- Each WAKE plays on or completes the Track. -/
theorem stillPlaying_or_completes (hstart : StillPlaying times track s 0 s) (m : Nat) :
    (∃ u, StillPlaying times track s m u) ∨ Completes times track s := by
  induction m with
  | zero => exact .inl ⟨s, hstart⟩
  | succ m ih =>
    refine ih.elim (fun ⟨u, h⟩ => ?_) .inr
    obtain ⟨t, k, hexec, hsends⟩ := exec_wake_sends (times m) h.playing h.track_eq h.idx.le
    rcases hsends.inTrack.lt_or_eq with hlt | hall
    · exact .inl ⟨t, h.wake_left hfair (hfair.timeOk htime m) hexec hsends hlt⟩
    · exact .inr (h.wake_all (hfair.timeOk htime m) hexec hsends hall)

/-- Wake-up times grow without bound, so a WAKE comes at which the last frame is due. -/
theorem completes_of_stillPlaying (hrate : 0 < track.rate)
    (hstart : StillPlaying times track s 0 s) : Completes times track s := by
  obtain ⟨m, hm⟩ := hfair.unbounded
    (s.H.NEXT + (track.frames.length : Rat) / track.rate - s.params.LEAD_WINDOW)
  refine (stillPlaying_or_completes hfair htime hstart m).elim (fun ⟨u, h⟩ => ?_) id
  obtain ⟨t, k, hexec, hsends⟩ := exec_wake_sends (times m) h.playing h.track_eq h.idx.le
  refine h.wake_all (hfair.timeOk htime m) hexec hsends (hsends.inTrack.lt_or_eq.resolve_left ?_)
  intro hlt
  have hnotDue := hsends.notDue hlt
  have hle : ((u.H.IDX + k : Nat) : Rat) / track.rate ≤
      (track.frames.length : Rat) / track.rate :=
    div_le_div_of_nonneg_right (by exact_mod_cast hlt.le) hrate.le
  rw [h.next, h.params, add_assoc, ← add_div, ← Nat.cast_add] at hnotDue
  linarith

end

/-- Playback from frame 0, with no WAKE issued yet. -/
theorem stillPlaying_zero {s : State} {track : Track} (times : Nat → Rat) (hs : Inv s)
    (hp : s.H.PLAYING = true) (ht : s.H.TRACK = some track) (hidx : s.H.IDX = 0) :
    StillPlaying times track s 0 s where
  run := rfl
  playing := hp
  track_eq := ht
  idx := hs.host.idx_lt hp ht
  next := by simp [hidx]
  params := rfl
  sent := hidx ▸ SentInOrder.zero s.params track.frames s.S (times 0)
  before := by simp

/-- Playback from frame 0 completes under fair wake-ups that do not begin before the last
apply. -/
theorem completes_of_playing {s : State} {times : Nat → Rat} {track : Track} (hs : Inv s)
    (hfair : FairWakes times) (hp : s.H.PLAYING = true) (ht : s.H.TRACK = some track)
    (hidx : s.H.IDX = 0) (htime : timeOk s.S (times 0)) : Completes times track s :=
  completes_of_stillPlaying hfair htime (hs.host.rate track ht)
    (stillPlaying_zero times hs hp ht hidx)

/-- Settles O51: PLAY leads to a Playing state at frame 0, and playback from there completes. -/
theorem playedTrackCompletes : Obligations.PlayedTrackCompletes := by
  refine ⟨fun _ _ _ => completes_of_playing,
    fun s tp times track hs hfair htp hp ht hne htime => ?_⟩
  have hexec := exec_play_of_hasFrames tp hp (hasFrames_iff.mpr ⟨track, ht, hne⟩)
  refine ⟨_, hexec, rfl, completes_of_playing (exec_inv hexec hs) hfair rfl ht rfl ?_⟩
  exact fun t0 ht0 => (htime t0 ht0).trans htp

end Sys2Proof.Machine
end

section
/-!
The obligations on exceptions (spec/60_exceptions.md): a step waits where no packet is pending,
and from the invariant it always answers a next state.
-/

namespace Sys2Proof.Machine

/-- A step with no packet pending waits (R230, R235). -/
theorem step_of_pending_nil {s : State} (h : s.port.pending = []) : step s = .next s := by
  simp only [step, h]

/-- Settles O5, by the equation of `step` on an empty stream. -/
theorem stepWaitsForACommand : Obligations.StepWaitsForACommand :=
  fun _ => step_of_pending_nil

/-- The invariant says nothing of the port, so taking packets from it keeps the invariant. -/
theorem withPending_inv {s : State} (hs : Inv s) (ps : List Packet) : Inv (s.withPending ps) :=
  ⟨hs.params, hs.block, hs.host⟩

/-- Settles O55: a step waits, refuses its packet, or executes a command, and from the invariant
every command answers a next state. -/
theorem noStepStopsTheMachine : Obligations.NoStepStopsTheMachine := by
  intro s hs
  cases hpending : s.port.pending with
  | nil => exact ⟨s, step_of_pending_nil hpending⟩
  | cons p ps =>
    cases hdecode : decode p with
    | error e => exact ⟨_, step_of_decode_error hpending hdecode⟩
    | ok command =>
      obtain ⟨i, more⟩ := command
      rw [step_of_decode_ok hpending hdecode]
      exact exec_next_of_inv (withPending_inv hs _) i

end Sys2Proof.Machine
end

section
/-!
The obligation on reset (spec/70_reset_and_hazards.md): the power-on value of every piece of
state.
-/

namespace Sys2Proof.Machine

/-- A silent path's tone registers (R41, R42, R43). -/
theorem silent_tone (p : Params) (X : Voice) :
    (VoiceRegs.silent p).freq.get X = p.TONE_FLOOR_HZ ∧
      (VoiceRegs.silent p).gain.get X = 0 ∧ (VoiceRegs.silent p).on.get X = false :=
  ⟨Voices.get_ofFn _ X, Voices.get_ofFn _ X, Voices.get_ofFn _ X⟩

/-- The user controls at power-on (R30, R31). -/
theorem Block.powerOn_userControls (p : Params) (osc : Voices Rat) (V : Path) :
    (Block.powerOn p osc).MUTE.get V = false ∧ (Block.powerOn p osc).UVOL.get V = 1 :=
  ⟨Paths.get_ofFn _ V, Paths.get_ofFn _ V⟩

/-- Settles O52: the families read off their initializers, every other part is the literal
`State.powerOn` writes, and reset is a power-on whose start phases are fractional parts. -/
theorem powerOnValues : Obligations.PowerOnValues := by
  constructor
  · intro p osc
    exact ⟨Block.powerOn_userControls p osc, rfl, silent_tone p, rfl, rfl, rfl, rfl, rfl, rfl,
      rfl, rfl, rfl, rfl, rfl⟩
  · refine ⟨_, fun X => ?_, rfl⟩
    rw [Voices.get_ofFn]
    exact ⟨frac_nonneg _, frac_lt_one _⟩

end Sys2Proof.Machine
end
